-- ==== Sys2Proof/Word.lean ====
section
/-! DEFINITION. The two word sizes of the block: a byte (8 bits) and a word (32 bits), rules R4 and R8 of
00_scope.md. `BitVec` arithmetic wraps at the width, which is what R9 says of storing into a field of that width. -/

namespace Sys2Proof

/-- An unsigned 8-bit value 0..255 (R4): a BUF, SBOX, INV or DIGEST entry. -/
abbrev Byte := BitVec 8

/-- A 32-bit word (R8): a register's value, a command word, SEED. -/
abbrev Word := BitVec 32

end Sys2Proof
end

