-- ==== Sys2Proof/Machine/Cpy.lean ====
section
/-! DEFINITION. The CPY profile of PERM_GEN (R110 to R116): MT19937 seeded through init_by_array with a one-word key, bounded
draws by rejection, and eight top-down shuffle passes on one generator stream. The spec marks all of it as supplied from
general knowledge; it is the profile the parameter PERM_GEN has when PGEN_ID reads 1. Assumptions 3 and 15. -/

namespace Sys2Proof.Machine

/-- The generator state G (R111): `mt[0..623]` and the index `mti`. -/
structure CpyGen where
  mt : Vector Word 624
  mti : Nat
  deriving DecidableEq, Repr

/-- `mt[i]`, the index taken mod 624. -/
def mtAt (mt : Vector Word 624) (i : Nat) : Word := mt[i % 624]'(Nat.mod_lt _ (by decide))

/-- `mt[i] <- v`, the index taken mod 624. -/
def mtPut (mt : Vector Word 624) (i : Nat) (v : Word) : Vector Word 624 :=
  mt.set (i % 624) v (Nat.mod_lt _ (by decide))

/-- `mt[i-1] ^ (mt[i-1] >> 30)`, the mixed previous entry of R112 and R113. -/
def mtPrev (mt : Vector Word 624) (i : Nat) : Word := mtAt mt (i - 1) ^^^ (mtAt mt (i - 1) >>> 30)

/-- `InitGenrand` (R112), the array it leaves. -/
def initGenrand (s : Word) : Vector Word 624 :=
  (List.range' 1 623).foldl (fun mt i => mtPut mt i (1812433253 * mtPrev mt i + BitVec.ofNat 32 i))
    (mtPut (Vector.replicate 624 0) 0 s)

/-- `i <- i + 1 ; if i >= 624: mt[0] <- mt[623] ; i <- 1` (R113). -/
def mtAdvance (st : Vector Word 624 × Nat) : Vector Word 624 × Nat :=
  if st.2 + 1 ≥ 624 then (mtPut st.1 0 (mtAt st.1 623), 1) else (st.1, st.2 + 1)

/-- One turn of the first loop of R113. -/
def seedTurn1 (seed : Word) (st : Vector Word 624 × Nat) : Vector Word 624 × Nat :=
  mtAdvance (mtPut st.1 st.2 ((mtAt st.1 st.2 ^^^ (mtPrev st.1 st.2 * 1664525)) + seed), st.2)

/-- One turn of the second loop of R113; the subtraction wraps. -/
def seedTurn2 (st : Vector Word 624 × Nat) : Vector Word 624 × Nat :=
  mtAdvance (mtPut st.1 st.2 ((mtAt st.1 st.2 ^^^ (mtPrev st.1 st.2 * 1566083941)) - BitVec.ofNat 32 st.2), st.2)

/-- `MT_Seed(seed)` (R113). -/
def mtSeed (seed : Word) : CpyGen :=
  let st1 := (List.range 624).foldl (fun st _ => seedTurn1 seed st) (initGenrand 19650218, 1)
  let st2 := (List.range 623).foldl (fun st _ => seedTurn2 st) st1
  { mt := mtPut st2.1 0 0x80000000, mti := 624 }

/-- Entry `kk` of the twist (R114), read from the array as it stands when the loop reaches `kk`. -/
def twistEntry (mt : Vector Word 624) (kk : Nat) : Word :=
  let y := (mtAt mt kk &&& 0x80000000) ||| (mtAt mt (kk + 1) &&& 0x7FFFFFFF)
  mtAt mt (kk + 397) ^^^ (y >>> 1) ^^^ (if y &&& 1 = 1 then 0x9908B0DF else 0)

/-- The loop of R114, in increasing `kk` and in place. -/
def twist (mt : Vector Word 624) : Vector Word 624 :=
  (List.range 624).foldl (fun mt kk => mtPut mt kk (twistEntry mt kk)) mt

/-- The tempering of R114. -/
def temper (y0 : Word) : Word :=
  let y1 := y0 ^^^ (y0 >>> 11)
  let y2 := y1 ^^^ ((y1 <<< 7) &&& 0x9D2C5680)
  let y3 := y2 ^^^ ((y2 <<< 15) &&& 0xEFC60000)
  y3 ^^^ (y3 >>> 18)

/-- `Genrand(G)` (R114): the output and the generator after it. -/
def genrand (g : CpyGen) : Word × CpyGen :=
  let g1 : CpyGen := if g.mti ≥ 624 then { mt := twist g.mt, mti := 0 } else g
  (temper (mtAt g1.mt g1.mti), { g1 with mti := g1.mti + 1 })

/-- `GetRandBits(G, k)` for 1 <= k <= 32 (R115). -/
def getRandBits (g : CpyGen) (k : Nat) : Nat × CpyGen :=
  ((genrand g).1.toNat >>> (32 - k), (genrand g).2)

/-- `BitLength(n)` for n >= 1 (R115). -/
def bitLength (n : Nat) : Nat := Nat.log2 n + 1

/-- `RandBelow(G, n)` (R115) within `fuel` draws; none if every one of them is rejected. -/
def randBelow (fuel : Nat) (g : CpyGen) (n : Nat) : Option (Nat × CpyGen) :=
  match fuel with
  | 0 => none
  | fuel + 1 =>
    let r := getRandBits g (bitLength n)
    if r.1 ≥ n then randBelow fuel r.2 n else some r

/-- `swap P[i], P[j]` (R116), the indices taken mod 256. -/
def swapEntries (P : Vector Byte 256) (i j : Nat) : Vector Byte 256 :=
  P.swap (i % 256) (j % 256) (Nat.mod_lt _ (by decide)) (Nat.mod_lt _ (by decide))

/-- The turns `i downto 1` of a shuffle pass (R116). -/
def shuffleFrom (fuel : Nat) (i : Nat) (g : CpyGen) (P : Vector Byte 256) : Option (CpyGen × Vector Byte 256) :=
  match i with
  | 0 => some (g, P)
  | i + 1 =>
    match randBelow fuel g (i + 2) with
    | none => none
    | some (j, g') => shuffleFrom fuel i g' (swapEntries P (i + 1) j)

/-- `passes` shuffle passes of R116, one after another on the same generator and array. -/
def shufflePasses (fuel : Nat) (passes : Nat) (g : CpyGen) (P : Vector Byte 256) : Option (CpyGen × Vector Byte 256) :=
  match passes with
  | 0 => some (g, P)
  | k + 1 =>
    match shuffleFrom fuel 255 g P with
    | none => none
    | some (g', P') => shufflePasses fuel k g' P'

/-- `[0, 1, 2, ..., 255]` (R110). -/
def identityTable : Vector Byte 256 := Vector.ofFn fun x => BitVec.ofFin x

/-- `PERM_GEN_CPY(seed)` (R110) within `fuel` draws for each RandBelow. -/
@[irreducible] def cpyTableWithin (fuel : Nat) (seed : Word) : Option (Vector Byte 256) :=
  (shufflePasses fuel 8 (mtSeed seed) identityTable).map Prod.snd

/-- More draws than the generator has states (624 words of 32 bits and an index below 625 make fewer than 2^20000), so a
RandBelow loop that rejects this many draws never ends. -/
@[irreducible] def drawBound : Nat := 2 ^ 20000

/-- `PERM_GEN_CPY(seed)` (R110); none only if a RandBelow loop never ends. -/
def cpyTable (seed : Word) : Option (Vector Byte 256) := cpyTableWithin drawBound seed

/-- A permutation of 0..255 as the array `P[0..255]` of R104. -/
def permTable (p : Equiv.Perm Byte) : Vector Byte 256 := Vector.ofFn fun x => p (BitVec.ofFin x)

/-- `PERM_GEN_CPY` as a total function (R104 (a), R110): `unending` gives the permutation for a seed on which a RandBelow loop
never ends. Assumption 3. -/
def permGenCpy (unending : Word → Equiv.Perm Byte) (seed : Word) : Vector Byte 256 :=
  (cpyTable seed).getD (permTable (unending seed))

end Sys2Proof.Machine
end

