-- ==== Sys2Proof/Syntax.lean ====
section
/-! DEFINITION. The command set CC-CMD version 1 (30_encoding.md): one constructor per row of R82 and of
spec/opcode_table.json. A command has no operand fields (R81): its operands LEN, DIGEST, BUF, SBOX and INV are implicit. -/

namespace Sys2Proof

/-- The ten commands of R82. -/
inductive Instr where
  /-- 0x00 NOP: does nothing but complete (R131). -/
  | nop
  /-- 0x01 BUILD_SBOX: builds SBOX and INV from the digest (R107). -/
  | buildSbox
  /-- 0x02 KS_XOR: XORs the buffer with the keystream (R132). -/
  | ksXor
  /-- 0x03 SUB: replaces each byte by its SBOX entry (R133). -/
  | sub
  /-- 0x04 INV_SUB: replaces each byte by its INV entry (R134). -/
  | invSub
  /-- 0x05 ROTL3: rotates each byte left by 3 (R135). -/
  | rotl3
  /-- 0x06 ROTR3: rotates each byte right by 3 (R136). -/
  | rotr3
  /-- 0x07 REVERSE: reverses the order of the bytes (R137). -/
  | reverse
  /-- 0x10 ENCODE: the source's `encode` (R160). -/
  | encode
  /-- 0x11 DECODE: the source's `decode` (R161). -/
  | decode
  deriving DecidableEq, Repr

end Sys2Proof
end

