-- ==== Sys2Proof/WellFormed.lean ====
section
/-! DEFINITION. Well-formedness. A command has no operand field (R81), so every `Instr` is well formed; what can be
ill formed is the 32-bit word the host writes to CMD (R80, R83, R84). The other checked input, a host transaction's
width and alignment (R53, R54), is `Transaction.legal` in Machine/Host.lean, where a repair can reach it. -/

namespace Sys2Proof

/-- No command has a field that could hold an illegal value (R81). -/
def Instr.wellFormed : Instr → Bool
  | .nop => true
  | .buildSbox => true
  | .ksXor => true
  | .sub => true
  | .invSub => true
  | .rotl3 => true
  | .rotr3 => true
  | .reverse => true
  | .encode => true
  | .decode => true

/-- Bits 31:8 of a command word, the field RSVD of format C (R80). -/
def rsvdField (w : Word) : BitVec 24 := w.extractLsb' 8 24

/-- Bits 7:0 of a command word, the field OPC of format C (R80). -/
def opcField (w : Word) : Byte := w.extractLsb' 0 8

/-- The opcodes R82 assigns: 0x00 to 0x07, 0x10 and 0x11. Every other value is reserved (R83). -/
def opcodeAssigned (op : Byte) : Bool :=
  decide (op.toNat ≤ 0x07) || op == 0x10 || op == 0x11

/-- A command word that names a command: RSVD is zero (R84) and OPC is assigned (R83). -/
def wellFormedWord (w : Word) : Bool :=
  rsvdField w == 0 && opcodeAssigned (opcField w)

end Sys2Proof
end

