-- ==== Sys2Proof/Decode.lean ====
section
/-! DEFINITION. The decoder of the words written to CMD, total on all 2^32 of them (R85), and the encoder, written from
the opcode column of R82. The decoder's rows are the match and mask columns of spec/opcode_table.json. -/

namespace Sys2Proof

/-- What a command word is, the busy check of R85 class 1 apart (that one looks at the state, not at the word). -/
inductive Decoded where
  /-- A row of R82. -/
  | command (i : Instr)
  /-- Bits 31:8 are not zero: rejected with CMD_RSVD (R84). -/
  | rsvd
  /-- RSVD is zero and OPC is reserved: rejected with CMD_ILLEGAL (R83). -/
  | illegal
  deriving DecidableEq, Repr

/-- A row of spec/opcode_table.json. -/
structure OpcodeRow where
  instr : Instr
  mask : Word
  pattern : Word
  deriving DecidableEq, Repr

/-- The opcode table (R82): every row is matched under the full mask (R85). -/
def opcodeTable : List OpcodeRow := [
  ⟨.nop,       0xFFFFFFFF, 0x00000000⟩,
  ⟨.buildSbox, 0xFFFFFFFF, 0x00000001⟩,
  ⟨.ksXor,     0xFFFFFFFF, 0x00000002⟩,
  ⟨.sub,       0xFFFFFFFF, 0x00000003⟩,
  ⟨.invSub,    0xFFFFFFFF, 0x00000004⟩,
  ⟨.rotl3,     0xFFFFFFFF, 0x00000005⟩,
  ⟨.rotr3,     0xFFFFFFFF, 0x00000006⟩,
  ⟨.reverse,   0xFFFFFFFF, 0x00000007⟩,
  ⟨.encode,    0xFFFFFFFF, 0x00000010⟩,
  ⟨.decode,    0xFFFFFFFF, 0x00000011⟩]

/-- The class of a command word: "A decoder compares the whole word with each row of rule R82 under mask 0xFFFFFFFF, and
classifies a word that matches no row by rule R83 and rule R84" (R85). -/
def decode (w : Word) : Decoded :=
  match opcodeTable.find? (fun r => w &&& r.mask == r.pattern) with
  | some r => .command r.instr
  | none => if rsvdField w ≠ 0 then .rsvd else .illegal

/-- The OPC column of R82. -/
def opcode : Instr → Byte
  | .nop => 0x00
  | .buildSbox => 0x01
  | .ksXor => 0x02
  | .sub => 0x03
  | .invSub => 0x04
  | .rotl3 => 0x05
  | .rotr3 => 0x06
  | .reverse => 0x07
  | .encode => 0x10
  | .decode => 0x11

/-- The command word of an instruction: bits 31:8 zero and bits 7:0 the opcode (R80, R88). -/
def encode (i : Instr) : Word := 0#24 ++ opcode i

/-- The command an opcode byte stands for, as PENDING holds it (R35): the command of the word with RSVD = 0. -/
def commandOf (op : Byte) : Option Instr :=
  match decode (0#24 ++ op) with
  | .command i => some i
  | .rsvd => none
  | .illegal => none

/-- The decoder on a word given as a number, for the host's opcode-table check: a command is one 32-bit word (R86), bit 0
its least significant bit (R8), and bits above `nbits` are zero. -/
def decodeTableWord (nbits w : Nat) : Option Instr :=
  if nbits ≤ 32 ∧ w < 2 ^ nbits then
    match decode (BitVec.ofNat 32 w) with
    | .command i => some i
    | .rsvd => none
    | .illegal => none
  else none

end Sys2Proof
end

