-- ==== Sys2Proof/Config.lean ====
section
/-! DEFINITION. What an implementation or a platform fixes (BUF_BYTES, PERM_GEN, BASE: rules R5, R6, R7; none of them
is state, R39), and the free values behind every `any()` of the spec (R10). Every one is `opaque` with no body: a
theorem that names it holds for every value the type admits. -/

namespace Sys2Proof

/-- BUF_BYTES / 4 - 1. The 16384 values of the type are exactly the legal capacities 4, 8, ..., 65536 of R5.
Assumption 1. -/
opaque Config.bufQuads : Fin 16384

/-- BUF_BYTES, the capacity of BUF in bytes: a multiple of 4 from 4 to 65536 (R5). Software reads it in CAP (R31). -/
def Config.bufBytes : Nat := 4 * (Config.bufQuads.val + 1)

/-- BASE / 0x20000. R7 asks only that BASE is aligned to 0x20000. Assumption 4. -/
opaque Config.baseIndex : Nat

/-- BASE, the host address at which the 128 KiB window begins (R7). -/
def Config.base : Nat := 0x20000 * Config.baseIndex

/-- The permutation the CPY profile would give for a seed on which a RandBelow loop never ends. R115 says that the loop
ends and R104 that PERM_GEN is total, so no seed is expected to need it. Assumption 3. -/
opaque Config.cpyUnending : Word → Equiv.Perm Byte

/-- A value of the parameter PERM_GEN (R6) together with what PGEN_ID reads for it (R32).
`other k f h` is a generator different from CPY that reports PGEN_ID = k + 2 (every non-zero value but 1): any function
from a seed to a permutation of 0..255, which is the whole contract of R104, that differs from PERM_GEN_CPY at some seed, as
R110 asks of every generator whose PGEN_ID is not 1. Assumption 2. -/
inductive Generator where
  /-- The CPY profile of R110 to R116; PGEN_ID = 1. -/
  | cpy
  /-- Another generator: total, deterministic, a permutation for every seed (R104), not PERM_GEN_CPY (R110), and otherwise
  unknown. -/
  | other (id : Fin (2 ^ 32 - 2)) (perm : Word → Equiv.Perm Byte)
      (notCpy : ∃ seed, Machine.permTable (perm seed) ≠ Machine.permGenCpy Config.cpyUnending seed)
  deriving Inhabited

/-- The fitted PERM_GEN (R6), an uninterpreted parameter as R104 asks. Assumption 2. -/
opaque Config.generator : Generator

/-- The free values of the spec's `any()` (R10): `Config.any d i` is byte `i` of draw number `d`. Each drawing step
takes the next unused draw number from `State.draws`, so no two draws share a number. Assumptions 5 and 6. -/
opaque Config.any : Nat → Nat → Byte

end Sys2Proof
end

