-- ==== Sys2Proof/Machine/Bus.lean ====
section
/-! DEFINITION. What the outside world can do to the block: host transactions (R52), and the events whose order is the
interleaving of the agents HOST and CORE (R38) and of the platform's reset input (R210). -/

namespace Sys2Proof.Machine

/-- The width of a transaction: 1, 2 or 4 bytes (R52). -/
inductive Width where
  | one
  | two
  | four
  deriving DecidableEq, Repr

/-- An 8n-bit bus value (R52). -/
inductive BusData where
  | byte (v : Byte)
  | half (v : BitVec 16)
  | word (v : Word)
  deriving DecidableEq, Repr

/-- A host transaction `(dir, n, off, data)` of R52. `off` is a window offset 0..0x1FFFF (R50: 17 bits); a write's width is
that of its data. -/
inductive Transaction where
  | read (n : Width) (off : BitVec 17)
  | write (off : BitVec 17) (data : BusData)
  deriving DecidableEq, Repr

/-- One turn of the interleaving (R38, R62). -/
inductive Event where
  /-- HOST performs one bus transaction. -/
  | host (t : Transaction)
  /-- CORE has the turn: it completes the command in flight, if there is one. -/
  | core
  /-- The platform asserts and releases the reset input (R210). -/
  | hardReset
  deriving DecidableEq, Repr

/-- The eight registers of the register region (R51). -/
inductive Reg where
  | id
  | ctrl
  | status
  | cmd
  | len
  | seed
  | cap
  | pgenId
  deriving DecidableEq, Repr

/-- What stands at a window offset (R51): a register, entry `k` of an array, or reserved space. -/
inductive Region where
  | register (r : Reg)
  | digest (k : Nat)
  | sbox (k : Nat)
  | inv (k : Nat)
  | buf (k : Nat)
  | reserved
  deriving DecidableEq, Repr

/-- The number of bytes of a width (R52). -/
def Width.bytes : Width → Nat
  | .one => 1
  | .two => 2
  | .four => 4

/-- The width of a bus value (R52). -/
def BusData.width : BusData → Width
  | .byte _ => .one
  | .half _ => .two
  | .word _ => .four

/-- The width of a transaction (R52). -/
def Transaction.width : Transaction → Width
  | .read n _ => n
  | .write _ d => d.width

/-- The offset of a transaction (R52). -/
def Transaction.off : Transaction → BitVec 17
  | .read _ off => off
  | .write off _ => off

/-- The window offset a host address selects, if it lies in the window that begins at BASE (R7, R50); an address outside the
window does not reach the block. Assumption 18. -/
def windowOffset (addr : Nat) : Option (BitVec 17) :=
  if Config.base ≤ addr ∧ addr < Config.base + 0x20000 then some (BitVec.ofNat 17 (addr - Config.base)) else none

/-- The register at word index `q` of the register region (R51). -/
def regAt (q : Nat) : Reg :=
  match q with
  | 0 => .id
  | 1 => .ctrl
  | 2 => .status
  | 3 => .cmd
  | 4 => .len
  | 5 => .seed
  | 6 => .cap
  | _ => .pgenId

/-- The address map of R51. -/
def regionOf (off : BitVec 17) : Region :=
  let a := off.toNat
  if a < 0x20 then .register (regAt (a / 4))
  else if a < 0x40 then .digest (a - 0x20)
  else if a < 0x400 then .reserved
  else if a < 0x500 then .sbox (a - 0x400)
  else if a < 0x600 then .inv (a - 0x500)
  else if a < 0x10000 then .reserved
  else if a - 0x10000 < Config.bufBytes then .buf (a - 0x10000)
  else .reserved

end Sys2Proof.Machine
end

