-- ==== Sys2Proof/Machine/State.lean ====
section
/-! DEFINITION. The state of the block: the whole of R39, then the model's own fields (marked so), the reasons a step can
stop, and the state after a hard reset (R210). -/

namespace Sys2Proof.Machine

/-- The written bytes of BUF: pairs (i, BUF[i]) with i strictly rising and below BUF_BYTES. An index that is not listed
has not been written since the last hard reset; it holds byte i of the reset draw (`State.bufByte`). Assumption 14. -/
abbrev Memory := List Host.Cell

/-- The reasons a step faults. -/
inductive Fault where
  /-- `raise BusError(off)` (R55), raised by a host transaction of a wrong width or alignment (R53, R54). The spec makes it
  a fault of the HOST agent. Safe: the run stops where the hardware answers the host and goes on. Assumption 13. -/
  | busError (off : BitVec 17)
  deriving DecidableEq, Repr

/-- The reasons a step is refused. -/
inductive Refusal where
  /-- No meaning for the instruction yet; raised only by an arm of `exec`. Safe. No arm raises it. -/
  | notModelled (mnemonic : String)
  /-- The CORE step with BUSY = 1 and a PENDING value that is no opcode of R82; raised by `coreStep`. R35 gives PENDING a
  meaning only as the opcode of an accepted command, and no run reaches such a state. Safe. Assumption 10. -/
  | pendingNotACommand (op : Byte)
  deriving DecidableEq, Repr

/-- The error codes of R180. -/
inductive ErrCode where
  | cmdBusy
  | cmdRsvd
  | cmdIllegal
  | lenRange
  | noSbox
  | busyAccess
  deriving DecidableEq, Repr

/-- The state: R39, field by field, and then the model's own fields. -/
structure State where
  /-- DIGEST[0..31] (R22). -/
  digest : Vector Byte 32
  /-- SBOX[0..255] (R24). -/
  sbox : Vector Byte 256
  /-- INV[0..255] (R25). -/
  inv : Vector Byte 256
  /-- STATUS.SBOX_VALID (R26). -/
  sboxValid : Bool
  /-- BUF (R27): the bytes written since the last hard reset. -/
  buf : Memory
  /-- LEN (R28). -/
  len : Word
  /-- CTRL.IRQ_EN (R29). -/
  irqEn : Bool
  /-- STATUS.BUSY (R30). -/
  busy : Bool
  /-- STATUS.DONE (R30). -/
  done : Bool
  /-- STATUS.ERR (R30). -/
  err : Bool
  /-- STATUS.ERRCODE (R30). -/
  errcode : BitVec 4
  /-- The hidden register PENDING (R35). -/
  pending : Byte
  /-- Model's own: the draw number behind the bytes of BUF that nothing has written since the last hard reset
  (R27, R210). Assumption 5. -/
  bufDraw : Nat
  /-- Model's own: the next unused draw number of `Config.any`. Assumption 6. -/
  draws : Nat
  /-- Model's own: the value the most recent host read returned on the bus (R56), none before the first. Assumption 8. -/
  rdata : Option BusData
  /-- Model's own: the turns still to come, first one first (R38, R62): plain data, so that a statement about every state is
  a statement about every interleaving. Assumption 7. -/
  inbox : List Event
  deriving DecidableEq, Repr

/-- Draw number `d` as a 256-entry table: every byte is free (R24, R25, R213). -/
@[irreducible] def anyTable (d : Nat) : Vector Byte 256 := Vector.ofFn fun x => Config.any d x.val

/-- Right after a hard reset (R210): DIGEST, LEN, CTRL and STATUS zero; BUF, SBOX, INV and PENDING are the draws 0 to 3, free
values (R24, R25, R27, R35: `any()`). Nothing is in flight and the host has not acted (R211). Assumptions 5, 8, 9. -/
def State.reset : State where
  digest := Vector.replicate 32 0
  sbox := anyTable 1
  inv := anyTable 2
  sboxValid := false
  buf := []
  len := 0
  irqEn := false
  busy := false
  done := false
  err := false
  errcode := 0
  pending := Config.any 3 0
  bufDraw := 0
  draws := 4
  rdata := none
  inbox := []

end Sys2Proof.Machine
end

