-- ==== Sys2Proof/Machine/Ops.lean ====
section
/-! DEFINITION. The named operations over memory and registers: byte order (R8, R57), BUF as memory (R27), the arrays
DIGEST, SBOX and INV (R22, R24, R25), recording and rejecting (R181, R182), the fixed sequence of a command's completion
(R38), and the return of a read's data. The block takes no trap and has no return from one (R193): `record` and `reject`
are what stands in an exception's place. -/

namespace Sys2Proof.Machine

/-- `BE32` of R8: the first byte is the most significant. -/
def be32 (b0 b1 b2 b3 : Byte) : Word := b0 ++ b1 ++ b2 ++ b3

/-- `LE(b 0, ..., b (n-1))` of R56 as a bus value: the lowest-addressed byte is bits 7:0 (R57). -/
def packLE (n : Width) (b : Nat → Byte) : BusData :=
  match n with
  | .one => .byte (b 0)
  | .two => .half (b 1 ++ b 0)
  | .four => .word (b 3 ++ b 2 ++ b 1 ++ b 0)

/-- The bytes of a bus value, `v[8k+7 : 8k]` for k from 0 (R56). -/
def BusData.bytes : BusData → List Byte
  | .byte v => [v]
  | .half v => [v.extractLsb' 0 8, v.extractLsb' 8 8]
  | .word v => [v.extractLsb' 0 8, v.extractLsb' 8 8, v.extractLsb' 16 8, v.extractLsb' 24 8]

/-- A bus value as a 32-bit number, for a register write (R56; only 4-byte ones reach a register, R53). -/
def BusData.value : BusData → Word
  | .byte v => v.setWidth 32
  | .half v => v.setWidth 32
  | .word v => v

/-- The byte written at index `a`, if any. -/
def Memory.read (m : Memory) (a : Nat) : Option Byte :=
  match m with
  | [] => none
  | (k, b) :: rest => if a = k then some b else Memory.read rest a

/-- One byte written at index `a`, in its place among the rising indices. -/
def Memory.write (m : Memory) (a : Nat) (v : Byte) : Memory :=
  match m with
  | [] => [(a, v)]
  | (k, b) :: rest =>
    if a < k then (a, v) :: (k, b) :: rest
    else if a = k then (a, v) :: rest
    else (k, b) :: Memory.write rest a v

/-- Bytes written at the indices from `a` up. -/
def Memory.writeBytes (m : Memory) (a : Nat) (bs : List Byte) : Memory :=
  match bs with
  | [] => m
  | b :: rest => Memory.writeBytes (Memory.write m a b) (a + 1) rest

/-- Every index is at least `lo` and below `hi`, and the indices rise. -/
def Memory.rises (m : Memory) (lo hi : Nat) : Bool :=
  match m with
  | [] => true
  | (k, _) :: rest => decide (lo ≤ k) && decide (k < hi) && Memory.rises rest (k + 1) hi

/-- The canonical form of BUF: indices strictly rising and inside BUF (R27). What an unlisted index holds is not a written
value, so no entry can repeat it. -/
def Memory.wf (m : Memory) : Bool := Memory.rises m 0 Config.bufBytes

/-- `BUF[i]` (R27): the byte written there last, else the reset draw. -/
def State.bufByte (s : State) (i : Nat) : Byte :=
  (Memory.read s.buf i).getD (Config.any s.bufDraw i)

/-- `BUF[i] <- f i` for every i in 0..n-1, all at once (R130: the whole input is read before any output is written).
The checks of R183 keep n within BUF. Assumption 11. -/
def State.rewrite (s : State) (n : Nat) (f : Nat → Byte) : State :=
  { s with buf := Memory.writeBytes s.buf 0 ((List.range n).map f) }

/-- `DIGEST[k]`, the index taken mod 32 (R22, R102). -/
def digestAt (D : Vector Byte 32) (k : Nat) : Byte := D[k % 32]'(Nat.mod_lt _ (by decide))

/-- Bytes stored into DIGEST from index `k` up (R43). -/
def putDigest (D : Vector Byte 32) (k : Nat) (bs : List Byte) : Vector Byte 32 :=
  match bs with
  | [] => D
  | b :: rest => putDigest (D.set (k % 32) b (Nat.mod_lt _ (by decide))) (k + 1) rest

/-- `T[x]` for a 256-entry table (R24, R25). -/
def lookup (T : Vector Byte 256) (x : Byte) : Byte := T[x.toNat]'x.isLt

/-- The number of an error code (R180). -/
def ErrCode.code : ErrCode → BitVec 4
  | .cmdBusy => 1
  | .cmdRsvd => 2
  | .cmdIllegal => 3
  | .lenRange => 4
  | .noSbox => 5
  | .busyAccess => 6

/-- `record(code)` (R182): the most recent error wins. -/
def State.record (s : State) (c : ErrCode) : State :=
  { s with err := true, errcode := c.code }

/-- `reject(code)` (R181): DONE is cleared unless the command in flight owns it. -/
def State.reject (s : State) (c : ErrCode) : State :=
  (if c = .cmdBusy then s else { s with done := false }).record c

/-- Acceptance (R183): DONE <- 0, PENDING <- op, BUSY <- 1. -/
def State.accept (s : State) (op : Byte) : State :=
  { s with done := false, pending := op, busy := true }

/-- The end of every CORE step (R38): BUSY <- 0 and DONE <- 1. PENDING stays. Assumption 20. -/
def State.complete (s : State) : State :=
  { s with busy := false, done := true }

/-- `SBOX <- S ; INV <- I ; STATUS.SBOX_VALID <- 1` (R105). -/
def State.install (s : State) (S I : Vector Byte 256) : State :=
  { s with sbox := S, inv := I, sboxValid := true }

/-- A read's data goes back to the host; nothing else changes (R59). -/
def State.answer (s : State) (d : BusData) : State :=
  { s with rdata := some d }

/-- The answer of a read that is a draw (R56): fresh bytes, and the next draw number is taken. -/
def State.answerAny (s : State) (n : Width) : State :=
  { s with rdata := some (packLE n (Config.any s.draws)), draws := s.draws + 1 }

/-- The turns still to come become `rest`; nothing of the block changes (R38). -/
def State.thenTurns (s : State) (rest : List Event) : State :=
  { s with inbox := rest }

end Sys2Proof.Machine
end

