-- ==== Sys2Proof/Machine/Operands.lean ====
section
/-! DEFINITION. The implicit operands of the commands (R81): the length, the seed (R100), the keystream (R102), the two
rotations (R135, R136), and the columns "uses LEN" and "needs SBOX_VALID" of R82. -/

namespace Sys2Proof.Machine

/-- `n = LEN` (R81). -/
def State.count (s : State) : Nat := s.len.toNat

/-- `SeedOf(DIGEST)` (R100): the first four digest bytes, most significant first. -/
def seedOf (D : Vector Byte 32) : Word :=
  be32 (digestAt D 0) (digestAt D 1) (digestAt D 2) (digestAt D 3)

/-- `KS(D, i)` (R102); the products are exact integers. -/
def ks (D : Vector Byte 32) (i : Nat) : Byte :=
  digestAt D ((i * 7) % 32) ^^^ digestAt D ((i * 3) % 32)

/-- The keystream of length `n` (R102). -/
def keystream (D : Vector Byte 32) (n : Nat) : List Byte := (List.range n).map (ks D)

/-- `((b << 3) | (b >> 5)) & 0xFF` (R135) on unbounded integers (R9). -/
def rotl3 (b : Byte) : Byte :=
  BitVec.ofNat 8 (((b.toNat <<< 3) ||| (b.toNat >>> 5)) &&& 0xFF)

/-- `((b >> 3) | (b << 5)) & 0xFF` (R136) on unbounded integers (R9). -/
def rotr3 (b : Byte) : Byte :=
  BitVec.ofNat 8 (((b.toNat >>> 3) ||| (b.toNat <<< 5)) &&& 0xFF)

/-- The column "uses LEN (LEN check)" of R82: the transforming commands. -/
def usesLen : Instr → Bool
  | .nop => false
  | .buildSbox => false
  | .ksXor => true
  | .sub => true
  | .invSub => true
  | .rotl3 => true
  | .rotr3 => true
  | .reverse => true
  | .encode => true
  | .decode => true

/-- The column "needs SBOX_VALID" of R82. -/
def needsTables : Instr → Bool
  | .nop => false
  | .buildSbox => false
  | .ksXor => false
  | .sub => true
  | .invSub => true
  | .rotl3 => false
  | .rotr3 => false
  | .reverse => false
  | .encode => false
  | .decode => false

/-- The commands that write SBOX and INV, by the column "writes" of R82. -/
def buildsTables : Instr → Bool
  | .nop => false
  | .buildSbox => true
  | .ksXor => false
  | .sub => false
  | .invSub => false
  | .rotl3 => false
  | .rotr3 => false
  | .reverse => false
  | .encode => true
  | .decode => true

/-- The command in flight while BUSY = 1 (R35). -/
def State.inFlight (s : State) : Option Instr := commandOf s.pending

end Sys2Proof.Machine
end

