-- ==== Sys2Proof/Machine/Tables.lean ====
section
/-! DEFINITION. The substitution-table builder (R104, R105) and the command BUILD_SBOX (R107). -/

namespace Sys2Proof.Machine

/-- The array a generator gives for a seed (R104). -/
def Generator.table (g : Generator) (seed : Word) : Vector Byte 256 :=
  match g with
  | .cpy => permGenCpy Config.cpyUnending seed
  | .other _ perm _ => permTable (perm seed)

/-- What PGEN_ID reads for a generator (R32, R110): 1 exactly for PERM_GEN_CPY, another non-zero value for any other. -/
def Generator.id (g : Generator) : Word :=
  match g with
  | .cpy => 1
  | .other k _ _ => BitVec.ofNat 32 (k.val + 2)

/-- PERM_GEN (R6, R104): the fitted generator. -/
def permGen (seed : Word) : Vector Byte 256 := Generator.table Config.generator seed

/-- `for x in 0..255: I[P[x]] <- x` (R105). When P is a permutation every entry is written exactly once (R106), so what the
array held before does not matter. -/
@[irreducible] def invertTable (P : Vector Byte 256) : Vector Byte 256 :=
  (List.range 256).foldl
    (fun I x => I.set (lookup P (BitVec.ofNat 8 x)).toNat (BitVec.ofNat 8 x) (BitVec.isLt _))
    (Vector.replicate 256 0)

/-- `BuildTables(seed)` (R105): (S, I). -/
def buildTables (seed : Word) : Vector Byte 256 × Vector Byte 256 :=
  (permGen seed, invertTable (permGen seed))

/-- `SBOX <- S ; INV <- I ; SBOX_VALID <- 1` for the tables of the current digest (R105, R108). -/
def State.build (s : State) : State :=
  s.install (buildTables (seedOf s.digest)).1 (buildTables (seedOf s.digest)).2

/-- BUILD_SBOX (R107). -/
def execBuildSbox (s : State) : Host.Outcome State Fault Refusal :=
  .next s.build.complete

end Sys2Proof.Machine
end

