-- ==== Sys2Proof/Machine/Pipeline.lean ====
section
/-! DEFINITION. The encode/decode pipeline controller (42_pipeline.md): ENCODE (R160) and DECODE (R161), each one CORE step
(R162) that builds the tables of the current digest and uses those, not the stored ones. -/

namespace Sys2Proof.Machine

/-- `z[i]` of R160: keystream XOR, substitution by S, rotation left by 3. -/
def encodeByte (S : Vector Byte 256) (D : Vector Byte 32) (i : Nat) (b : Byte) : Byte :=
  rotl3 (lookup S (b ^^^ ks D i))

/-- `out[i]` of R161 from the byte z: rotation right by 3, inverse substitution by I, keystream XOR. -/
def decodeByte (I : Vector Byte 256) (D : Vector Byte 32) (i : Nat) (z : Byte) : Byte :=
  lookup I (rotr3 z) ^^^ ks D i

/-- ENCODE (R160): `BUF[i] <- z[n-1-i]`, then the tables. -/
def execEncode (s : State) : Host.Outcome State Fault Refusal :=
  .next
    (s.rewrite s.count fun i =>
      encodeByte (buildTables (seedOf s.digest)).1 s.digest (s.count - 1 - i) (s.bufByte (s.count - 1 - i))).build.complete

/-- DECODE (R161): `BUF[i] <- out[i]`, out[i] from `BUF[n-1-i]`, then the tables. -/
def execDecode (s : State) : Host.Outcome State Fault Refusal :=
  .next
    (s.rewrite s.count fun i =>
      decodeByte (buildTables (seedOf s.digest)).2 s.digest i (s.bufByte (s.count - 1 - i))).build.complete

end Sys2Proof.Machine
end

