-- ==== Sys2Proof/Machine/Stages.lean ====
section
/-! DEFINITION. NOP and the stage commands (41_stages.md): the CORE step of each (R38), under the common frame of R130. -/

namespace Sys2Proof.Machine

/-- NOP (R131): no effect but completion. -/
def execNop (s : State) : Host.Outcome State Fault Refusal :=
  .next s.complete

/-- KS_XOR (R132): `BUF[i] <- BUF[i] ^ KS(DIGEST, i)`. -/
def execKsXor (s : State) : Host.Outcome State Fault Refusal :=
  .next (s.rewrite s.count fun i => s.bufByte i ^^^ ks s.digest i).complete

/-- SUB (R133): `BUF[i] <- SBOX[BUF[i]]`. -/
def execSub (s : State) : Host.Outcome State Fault Refusal :=
  .next (s.rewrite s.count fun i => lookup s.sbox (s.bufByte i)).complete

/-- INV_SUB (R134): `BUF[i] <- INV[BUF[i]]`. -/
def execInvSub (s : State) : Host.Outcome State Fault Refusal :=
  .next (s.rewrite s.count fun i => lookup s.inv (s.bufByte i)).complete

/-- ROTL3 (R135). -/
def execRotl3 (s : State) : Host.Outcome State Fault Refusal :=
  .next (s.rewrite s.count fun i => rotl3 (s.bufByte i)).complete

/-- ROTR3 (R136). -/
def execRotr3 (s : State) : Host.Outcome State Fault Refusal :=
  .next (s.rewrite s.count fun i => rotr3 (s.bufByte i)).complete

/-- REVERSE (R137): `BUF[i] <- T[n-1-i]`, T the whole input. -/
def execReverse (s : State) : Host.Outcome State Fault Refusal :=
  .next (s.rewrite s.count fun i => s.bufByte (s.count - 1 - i)).complete

end Sys2Proof.Machine
end

