-- ==== Sys2Proof/Machine/Dispatch.lean ====
section
/-! DEFINITION. One arm per command: the CORE step that performs it (R38). -/

namespace Sys2Proof.Machine

/-- The CORE step of command `i` (R38): "performs the whole of the command in PENDING atomically". -/
def exec (i : Instr) (s : State) : Host.Outcome State Fault Refusal :=
  match i with
  | .nop => Sys2Proof.Machine.execNop s
  | .buildSbox => Sys2Proof.Machine.execBuildSbox s
  | .ksXor => Sys2Proof.Machine.execKsXor s
  | .sub => Sys2Proof.Machine.execSub s
  | .invSub => Sys2Proof.Machine.execInvSub s
  | .rotl3 => Sys2Proof.Machine.execRotl3 s
  | .rotr3 => Sys2Proof.Machine.execRotr3 s
  | .reverse => Sys2Proof.Machine.execReverse s
  | .encode => Sys2Proof.Machine.execEncode s
  | .decode => Sys2Proof.Machine.execDecode s

end Sys2Proof.Machine
end

