-- ==== Sys2Proof/Machine/Flags.lean ====
section
/-! DEFINITION. The words CTRL and STATUS (R29, R30), the write effect of STATUS (R41) and the interrupt output (R37, R192). -/

namespace Sys2Proof.Machine

/-- A flag as one bit. -/
def bit (b : Bool) : BitVec 1 := BitVec.ofBool b

/-- What a read of CTRL returns (R29): IRQ_EN in bit 0; SRST reads 0 and bits 31:2 read 0. -/
def State.ctrlWord (s : State) : Word := 0#31 ++ bit s.irqEn

/-- What a read of STATUS returns (R30): bits 31:12 zero, ERRCODE in 11:8, bits 7:4 zero, SBOX_VALID, ERR, DONE, BUSY. -/
def State.statusWord (s : State) : Word :=
  0#20 ++ s.errcode ++ 0#4 ++ bit s.sboxValid ++ bit s.err ++ bit s.done ++ bit s.busy

/-- A write of `v` to STATUS (R41): bit 1 clears DONE, bit 2 clears ERR and ERRCODE, every other bit is ignored. -/
def State.writeStatus (s : State) (v : Word) : State :=
  { s with
    done := if v.getLsbD 1 then false else s.done
    err := if v.getLsbD 2 then false else s.err
    errcode := if v.getLsbD 2 then 0 else s.errcode }

/-- The output `irq = CTRL.IRQ_EN & (STATUS.DONE | STATUS.ERR)` (R37, R192). -/
def State.irq (s : State) : Bool := s.irqEn && (s.done || s.err)

end Sys2Proof.Machine
end

