-- ==== Sys2Proof/Machine/Issue.lean ====
section
/-! DEFINITION. The issue procedure (R183): what a write of a word to CMD does. -/

namespace Sys2Proof.Machine

/-- The checks of R183 that depend on the command, LEN_RANGE (R187) before NO_SBOX (R188), and acceptance. -/
def issueCommand (i : Instr) (s : State) : State :=
  if usesLen i = true ∧ Config.bufBytes < s.count then s.reject .lenRange
  else if needsTables i = true ∧ s.sboxValid = false then s.reject .noSbox
  else s.accept (opcode i)

/-- `Issue(w)` (R183): the first check that applies decides. -/
def issue (w : Word) (s : State) : State :=
  if s.busy then s.reject .cmdBusy
  else
    match decode w with
    | .rsvd => s.reject .cmdRsvd
    | .illegal => s.reject .cmdIllegal
    | .command i => issueCommand i s

end Sys2Proof.Machine
end

