-- ==== Sys2Proof/Machine/Reset.lean ====
section
/-! DEFINITION. Soft reset (R212, R213), the write effect of CTRL (R42), and hard reset as an event (R210). -/

namespace Sys2Proof.Machine

/-- `BUF[0..LEN-1] <- any()` (R213), the bytes of one fresh draw. -/
def State.scrambleBuf (s : State) : State :=
  { s.rewrite s.count (Config.any s.draws) with draws := s.draws + 1 }

/-- `SBOX[x] <- any() ; INV[x] <- any()` (R213), the bytes of two fresh draws. -/
def State.scrambleTables (s : State) : State :=
  { s with
    sbox := anyTable s.draws
    inv := anyTable (s.draws + 1)
    draws := s.draws + 2 }

/-- The abort of the command in flight (R213): a transforming command leaves BUF[0..LEN-1] free, a build leaves SBOX and INV
free, and ENCODE and DECODE leave both. -/
def State.abort (s : State) : State :=
  let op := s.inFlight
  let s1 := if op.any usesLen then s.scrambleBuf else s
  if op.any buildsTables then s1.scrambleTables else s1

/-- The last two lines of SoftReset (R213): the status bits and SBOX_VALID are cleared. -/
def State.clearStatus (s : State) : State :=
  { s with busy := false, done := false, err := false, errcode := 0, sboxValid := false }

/-- `SoftReset()` (R213). -/
def State.softReset (s : State) : State :=
  (if s.busy then s.abort else s).clearStatus

/-- A write of `v` to CTRL (R42): IRQ_EN first, then the soft reset if bit 1 is set. -/
def State.writeCtrl (s : State) (v : Word) : State :=
  let s1 := { s with irqEn := v.getLsbD 0 }
  if v.getLsbD 1 then s1.softReset else s1

/-- A hard reset (R210): every piece of the block's state takes its reset value, and BUF, SBOX, INV and PENDING take fresh
draws. The host's side (what a read last returned, the turns to come) is not the block's. Assumption 12. -/
def State.hardReset (s : State) : State where
  digest := Vector.replicate 32 0
  sbox := anyTable (s.draws + 1)
  inv := anyTable (s.draws + 2)
  sboxValid := false
  buf := []
  len := 0
  irqEn := false
  busy := false
  done := false
  err := false
  errcode := 0
  pending := Config.any (s.draws + 3) 0
  bufDraw := s.draws
  draws := s.draws + 4
  rdata := s.rdata
  inbox := s.inbox

end Sys2Proof.Machine
end

