-- ==== Sys2Proof/Machine/Host.lean ====
section
/-! DEFINITION. The HOST agent's step: one bus transaction (R52 to R60). -/

namespace Sys2Proof.Machine

/-- R54: natural alignment, `off mod n = 0`. -/
def Transaction.aligned (t : Transaction) : Bool := t.off.toNat % t.width.bytes == 0

/-- R53: a register takes only 4-byte transactions; arrays and reserved space take 1, 2 or 4 bytes. -/
def Transaction.widthAllowed (t : Transaction) : Bool :=
  match regionOf t.off with
  | .register _ => t.width == .four
  | .digest _ => true
  | .sbox _ => true
  | .inv _ => true
  | .buf _ => true
  | .reserved => true

/-- A transaction that R53 and R54 allow. -/
def Transaction.legal (t : Transaction) : Bool := t.aligned && t.widthAllowed

/-- `REG(off)` of R56: what a read of a register returns (R23, R28 to R34). -/
def State.readReg (s : State) (r : Reg) : Word :=
  match r with
  | .id => 0x43525950
  | .ctrl => s.ctrlWord
  | .status => s.statusWord
  | .cmd => 0
  | .len => s.len
  | .seed => seedOf s.digest
  | .cap => BitVec.ofNat 32 Config.bufBytes
  | .pgenId => Generator.id Config.generator

/-- `REGWRITE(off, v)` of R56; a write to ID, SEED, CAP or PGEN_ID is ignored (R58). -/
def State.writeReg (s : State) (r : Reg) (v : Word) : State :=
  match r with
  | .id => s
  | .ctrl => s.writeCtrl v
  | .status => s.writeStatus v
  | .cmd => issue v s
  | .len => { s with len := v }
  | .seed => s
  | .cap => s
  | .pgenId => s

/-- Entry `k` of a 256-entry table, for a host read (R24, R25). -/
def tableAt (T : Vector Byte 256) (k : Nat) : Byte := lookup T (BitVec.ofNat 8 k)

/-- `MemRead(off, n)` (R56), the checks of R53 and R54 passed: the data goes to the host. -/
def State.hostRead (s : State) (n : Width) (off : BitVec 17) : State :=
  match regionOf off with
  | .register r => s.answer (.word (s.readReg r))
  | .reserved => s.answer (packLE n fun _ => 0)
  | .digest k => s.answer (packLE n fun j => digestAt s.digest (k + j))
  | .sbox k => if s.busy then s.answerAny n else s.answer (packLE n fun j => tableAt s.sbox (k + j))
  | .inv k => if s.busy then s.answerAny n else s.answer (packLE n fun j => tableAt s.inv (k + j))
  | .buf k => if s.busy then s.answerAny n else s.answer (packLE n fun j => s.bufByte (k + j))

/-- An accepted write to DIGEST (R43): the bytes are stored and SBOX_VALID is cleared, once. -/
def State.writeDigest (s : State) (k : Nat) (bs : List Byte) : State :=
  { s with digest := putDigest s.digest k bs, sboxValid := false }

/-- An accepted write to BUF (R27, R56). -/
def State.writeBuf (s : State) (k : Nat) (bs : List Byte) : State :=
  { s with buf := Memory.writeBytes s.buf k bs }

/-- The offsets a command in flight protects: LEN, DIGEST and BUF (R56, R189). -/
def Region.frozen : Region → Bool
  | .register .len => true
  | .register _ => false
  | .digest _ => true
  | .sbox _ => false
  | .inv _ => false
  | .buf _ => true
  | .reserved => false

/-- `MemWrite(off, n, v)` (R56), the checks of R53 and R54 passed. -/
def State.hostWrite (s : State) (off : BitVec 17) (d : BusData) : State :=
  if s.busy = true ∧ Region.frozen (regionOf off) = true then s.record .busyAccess
  else
    match regionOf off with
    | .register r => s.writeReg r d.value
    | .reserved => s
    | .sbox _ => s
    | .inv _ => s
    | .digest k => s.writeDigest k d.bytes
    | .buf k => s.writeBuf k d.bytes

/-- The HOST step (R52): a bus error if R53 or R54 is broken (R55), else the read or the write. -/
def hostStep (t : Transaction) (s : State) : Host.Outcome State Fault Refusal :=
  if t.legal then
    match t with
    | .read n off => .next (s.hostRead n off)
    | .write off d => .next (s.hostWrite off d)
  else .fault (.busError t.off)

end Sys2Proof.Machine
end

