-- ==== Sys2Proof/Machine/Agents.lean ====
section
/-! DEFINITION. The turns of the two agents and of the reset input (R38, R62, R210). -/

namespace Sys2Proof.Machine

/-- The CORE step (R38): it performs the command PENDING holds. With BUSY = 0 CORE has no step, and its turn passes.
Assumptions 7 and 10. -/
def coreStep (s : State) : Host.Outcome State Fault Refusal :=
  if s.busy then
    match s.inFlight with
    | some i => exec i s
    | none => .refused (.pendingNotACommand s.pending)
  else .next s

/-- The turn of one event. -/
def takeTurn (e : Event) (s : State) : Host.Outcome State Fault Refusal :=
  match e with
  | .host t => hostStep t s
  | .core => coreStep s
  | .hardReset => .next s.hardReset

/-- The next turn: the first event of the inbox. When the host has nothing more to do the turn is CORE's, so that a command in
flight is not left waiting (R38: always enabled while BUSY = 1; R222). Assumptions 7 and 16. -/
def advance (s : State) : Host.Outcome State Fault Refusal :=
  match s.inbox with
  | [] => coreStep s
  | e :: rest => takeTurn e (s.thenTurns rest)

/-- The word `w` as the command whose CORE step comes next. A word that names a command stands as that command accepted (R183:
DONE <- 0, PENDING <- op, BUSY <- 1) with the next turn CORE's; any other word stands as a write of it to CMD, whose turn is
next and which rejects it (R85). Assumption 9. -/
def State.placeCommand (s : State) (nbits w : Nat) : State :=
  match decodeTableWord nbits w with
  | some i => (s.accept (opcode i)).thenTurns (.core :: s.inbox)
  | none => s.thenTurns (.host (.write 0x0000C (.word (BitVec.ofNat 32 w))) :: s.inbox)

end Sys2Proof.Machine
end

