-- ==== Sys2Proof/Machine/Assembler.lean ====
section
/-! DEFINITION. The assembly notation of host programs (R87 to R90) as the transactions and turns it expands to. The block
cannot tell a pseudo-instruction from its expansion (R89), so nothing here adds to the machine. A host's branches on values
it read are its own control flow (R87): a loop is written as the polls it took. -/

namespace Sys2Proof.Machine

/-- The offset of CMD (R51). -/
def cmdOffset : BitVec 17 := 0x0000C

/-- The offset of STATUS (R51). -/
def statusOffset : BitVec 17 := 0x00008

/-- `CMD.W w`: a raw word written to CMD (R88). -/
def asmCmdWord (w : Word) : Transaction := .write cmdOffset (.word w)

/-- `CMD m` (R88). -/
def asmCmd (i : Instr) : Transaction := asmCmdWord (encode i)

/-- `CLRST`: `WR32 STATUS, 0x00000006` (R89). -/
def asmClrst : Transaction := .write statusOffset (.word 0x00000006)

/-- `LDLEN n`: `WR32 LEN, n` (R89). -/
def asmLdlen (n : Word) : Transaction := .write 0x00010 (.word n)

/-- `LDDIG d0 .. d31`: for k in 0..7, `WR32 DIGEST+4k, LE32(d4k, ..., d4k+3)` (R89). -/
def asmLddig (D : Vector Byte 32) : List Transaction :=
  (List.range 8).map fun k => .write (BitVec.ofNat 17 (0x20 + 4 * k)) (packLE .four fun j => digestAt D (4 * k + j))

/-- `LDBUF b0 .. b{m-1}` without the braces: for k in 0..m-1, `WR8 BUF+k, bk` (R89). -/
def asmLdbuf (bs : List Byte) : List Transaction :=
  bs.mapIdx fun k b => .write (BitVec.ofNat 17 (0x10000 + k)) (.byte b)

/-- `RD32 STATUS` (R87). -/
def asmReadStatus : Transaction := .read .four statusOffset

/-- `WAIT` (R89) in a run where CORE's turn comes after `polls` readings of STATUS: the loop ends with the reading after it.
Assumption 19. -/
def asmWait (polls : Nat) : List Event :=
  List.replicate polls (.host asmReadStatus) ++ [.core, .host asmReadStatus]

/-- `RUN m`: `CMD m` then `WAIT` (R89). -/
def asmRun (i : Instr) (polls : Nat) : List Event := .host (asmCmd i) :: asmWait polls

end Sys2Proof.Machine
end

