-- ==== Sys2Proof/Safety.lean ====
section
/-! DEFINITION. The terms the statements use: the invariant of every reachable state (95_test_vectors.md section 8, item 5),
and a run of commands, each issued through CMD and completed by CORE (`RUN m` of R89). -/

namespace Sys2Proof.Machine

/-- The invariants of 95_test_vectors.md section 8 item 5, with what acceptance established about the command in flight
(R183) and the canonical form of BUF. -/
structure State.Inv (s : State) : Prop where
  /-- BUSY = 1 implies DONE = 0. -/
  busyNotDone : s.busy = true → s.done = false
  /-- ERR = 0 implies ERRCODE = 0. -/
  noErrNoCode : s.err = false → s.errcode = 0
  /-- ERR = 1 only with a code of R180. -/
  errHasCode : s.err = true → s.errcode ≠ 0
  /-- ERRCODE is in 0..6. -/
  codeInRange : s.errcode.toNat ≤ 6
  /-- SBOX_VALID = 1 implies that SBOX and INV are the tables of the current digest. -/
  tablesCurrent : s.sboxValid = true → s.sbox = (buildTables (seedOf s.digest)).1 ∧ s.inv = (buildTables (seedOf s.digest)).2
  /-- The command in flight passed the checks of R183. -/
  flightAccepted : s.busy = true → ∃ i, s.inFlight = some i ∧
    (usesLen i = true → s.count ≤ Config.bufBytes) ∧ (needsTables i = true → s.sboxValid = true)
  /-- BUF is in canonical form. -/
  bufForm : Memory.wf s.buf = true

/-- Whose turn is next (R38): the first event of the inbox, CORE's when there is none. -/
def State.turn (s : State) : Event := s.inbox.headD .core

/-- The write of CTRL that performs a soft reset (R42, R212): bit 1 of the word is set. -/
def Event.isSoftReset (e : Event) : Prop := ∃ v : Word, e = .host (.write 0x00004 (.word v)) ∧ v.getLsbD 1 = true

/-- `RUN i` (R89) with nothing between: the write of `i`'s word to CMD, then CORE's turn. -/
def runCommand (i : Instr) (s : State) : Host.Outcome State Fault Refusal :=
  coreStep (issue (encode i) s)

/-- Several `RUN`s, one after another. -/
def runAll (is : List Instr) (s : State) : Host.Outcome State Fault Refusal :=
  match is with
  | [] => .next s
  | i :: rest =>
    match runCommand i s with
    | .next s' => runAll rest s'
    | .fault r => .fault r
    | .refused r => .refused r

/-- The block's state as the host could find it out, the model's own fields and the two fields a rule names apart: every
architectural field of R39 but BUF, BUSY and DONE is the same in `t` as in `s`. -/
def SameButBuf (s t : State) : Prop :=
  t.digest = s.digest ∧ t.sbox = s.sbox ∧ t.inv = s.inv ∧ t.sboxValid = s.sboxValid ∧ t.len = s.len ∧
  t.irqEn = s.irqEn ∧ t.err = s.err ∧ t.errcode = s.errcode ∧ t.pending = s.pending

/-- The same, less SBOX, INV and SBOX_VALID: what a table-building command leaves. -/
def SameButBufTables (s t : State) : Prop :=
  t.digest = s.digest ∧ t.len = s.len ∧ t.irqEn = s.irqEn ∧ t.err = s.err ∧ t.errcode = s.errcode ∧
  t.pending = s.pending

/-- The model's own fields that no command touches: what unwritten BUF bytes hold, the draws, what the host last read and the
turns to come. -/
def SameHostSide (s t : State) : Prop :=
  t.bufDraw = s.bufDraw ∧ t.draws = s.draws ∧ t.rdata = s.rdata ∧ t.inbox = s.inbox

/-- A command has ended (R38): BUSY = 0 and DONE = 1. -/
def Completed (t : State) : Prop := t.busy = false ∧ t.done = true

/-- Every byte of BUF reads the same in `t` as in `s`. -/
def SameBuf (s t : State) : Prop := ∀ k, t.bufByte k = s.bufByte k

/-- `I` is the inverse of the table `S` on both sides (R106). -/
def Inverse (S I : Vector Byte 256) : Prop :=
  (∀ x, lookup I (lookup S x) = x) ∧ (∀ y, lookup S (lookup I y) = y)

end Sys2Proof.Machine
end

