-- ==== Sys2Proof/Certificates/Slice0/Obligations.lean ====
section
/-! DEFINITION. The statements. Each docstring names the rules of spec/ it rests on, and says where a clause is the model's
own choice (a log entry) and not the spec's. -/

open Sys2Proof Sys2Proof.Machine

/-! ## Encoding -/

/-- A sanity statement: words written out bit by bit from R80 and R82, and reserved ones from 95_test_vectors.md 7.1. -/
def Obligations.SampleWordsDecode : Prop :=
  decode 0b00000000000000000000000000000000#32 = .command .nop ∧
  decode 0b00000000000000000000000000000001#32 = .command .buildSbox ∧
  decode 0b00000000000000000000000000000100#32 = .command .invSub ∧
  decode 0b00000000000000000000000000000111#32 = .command .reverse ∧
  decode 0b00000000000000000000000000010000#32 = .command .encode ∧
  decode 0b00000000000000000000000000010001#32 = .command .decode ∧
  decode 0x00000008#32 = .illegal ∧ decode 0x000000FF#32 = .illegal ∧
  decode 0x00000103#32 = .rsvd ∧ decode 0x80000000#32 = .rsvd

/-- R80, R85, R88: a word is decoded to a command exactly when it is that command's word, whose bits 31:8 are zero and bits
7:0 the opcode; and the opcode PENDING holds decodes to the command again (R35). -/
def Obligations.DecodeAndEncodeAgree : Prop :=
  ∀ (i : Instr) (w : Word) (op : Byte),
    (decode w = .command i ↔ w = encode i) ∧ (commandOf op = some i ↔ op = opcode i) ∧
    (encode i).toNat = (opcode i).toNat ∧ decodeTableWord 32 (encode i).toNat = some i

/-- R83, R84, R85: a word with RSVD not zero is rejected with CMD_RSVD whatever its OPC, a word with RSVD = 0 and a reserved
OPC (0x08 to 0x0F, 0x12 to 0xFF) is illegal, and every other word is a command. -/
def Obligations.EveryWordFallsInOneClass : Prop :=
  ∀ w : Word,
    (decode w = .rsvd ↔ 0x100 ≤ w.toNat) ∧
    (decode w = .illegal ↔ (0x08 ≤ w.toNat ∧ w.toNat ≤ 0x0F) ∨ (0x12 ≤ w.toNat ∧ w.toNat ≤ 0xFF)) ∧
    ((∃ i, decode w = .command i) ↔ wellFormedWord w = true)

/-! ## What a step runs -/

/-- R38: with BUSY = 1, CORE's turn performs the command PENDING holds; the only thing a step adds is taking the turn off the
inbox. That CORE has the turn when the inbox is empty is the model's choice (log entry 7). -/
def Obligations.StepRunsThePendingCommand : Prop :=
  ∀ (s : State) (rest : List Event) (i : Instr),
    s.busy = true → s.pending = opcode i →
      (s.inbox = .core :: rest → step s = exec i (s.thenTurns rest)) ∧
      (s.inbox = [] → step s = exec i s)

/-- R38, R211: with BUSY = 0 CORE has no step; a turn given to it passes with nothing changed, and with no turn to come the
machine stays as it is. The turns themselves are the model's (log entry 7). -/
def Obligations.IdleCoreDoesNothing : Prop :=
  ∀ (s : State) (rest : List Event), s.busy = false →
    (s.inbox = .core :: rest → step s = .next (s.thenTurns rest)) ∧
    (s.inbox = [] → step s = .next s)

/-- The state `withFetchWord` makes runs the word's command in the very next step; log entry 9 says what it stands for. -/
def Obligations.PlacedWordRunsNext : Prop :=
  ∀ (s : State) (i : Instr), step (s.withFetchWord 32 (encode i).toNat) = exec i (s.accept (opcode i))

/-- R88, R183, R38: a write of a command's word to CMD and then CORE's turn is two steps that together are `RUN i`: the issue
procedure and then, if it accepted, the command itself. -/
def Obligations.CommandWriteThenCoreTurn : Prop :=
  ∀ (s : State) (i : Instr) (rest : List Event), s.inbox = .host (asmCmd i) :: .core :: rest →
    ∃ s1, step s = .next s1 ∧ s1 = issue (encode i) (s.thenTurns (.core :: rest)) ∧
      step s1 = runCommand i (s.thenTurns rest)

/-! ## Issue and errors -/

/-- R183, with the word's fields and the sets of opcodes as the rule writes them. -/
def Obligations.IssueChecksInOrder : Prop :=
  ∀ (s : State) (w : Word) (rest : List Event), s.inbox = .host (.write 0x0000C (.word w)) :: rest →
    step s = .next (
      let s0 := s.thenTurns rest
      let op := opcField w
      if s.busy = true then s0.reject .cmdBusy
      else if rsvdField w ≠ 0 then s0.reject .cmdRsvd
      else if ¬ (op.toNat ≤ 0x07 ∨ op = 0x10 ∨ op = 0x11) then s0.reject .cmdIllegal
      else if ((0x02 ≤ op.toNat ∧ op.toNat ≤ 0x07) ∨ op = 0x10 ∨ op = 0x11) ∧ Config.bufBytes < s.len.toNat then
        s0.reject .lenRange
      else if (op = 0x03 ∨ op = 0x04) ∧ s.sboxValid = false then s0.reject .noSbox
      else { s0 with done := false, pending := op, busy := true })

/-- R180, R181, R182: a rejection sets ERR and the code, clears DONE unless the code is CMD_BUSY, and changes nothing else;
the codes are 1 to 6 in the order of R180. -/
def Obligations.RejectChangesOnlyStatus : Prop :=
  (∀ (s : State) (c : ErrCode),
    s.reject c = { s with err := true, errcode := c.code, done := if c = .cmdBusy then s.done else false }) ∧
  [ErrCode.cmdBusy, .cmdRsvd, .cmdIllegal, .lenRange, .noSbox, .busyAccess].map ErrCode.code = [1, 2, 3, 4, 5, 6]

/-! ## The commands: result, completion and frame -/

/-- R131, R38: NOP completes from every state and changes nothing but BUSY and DONE. -/
def Obligations.NopOnlyCompletes : Prop :=
  ∀ s : State, exec .nop s = .next { s with busy := false, done := true }

/-- R132, R130: KS_XOR completes; each byte below LEN is XORed with the keystream byte of its index, and nothing else changes
but BUSY and DONE. -/
def Obligations.KsXorResult : Prop :=
  ∀ s : State, ∃ t, exec .ksXor s = .next t ∧ Completed t ∧ SameButBuf s t ∧ SameHostSide s t ∧
    ∀ i, t.bufByte i =
      if i < s.len.toNat then s.bufByte i ^^^ (digestAt s.digest ((i * 7) % 32) ^^^ digestAt s.digest ((i * 3) % 32))
      else s.bufByte i

/-- R133, R130: SUB completes; each byte below LEN becomes its SBOX entry, and nothing else changes but BUSY and DONE. -/
def Obligations.SubResult : Prop :=
  ∀ s : State, ∃ t, exec .sub s = .next t ∧ Completed t ∧ SameButBuf s t ∧ SameHostSide s t ∧
    ∀ i, t.bufByte i = if i < s.len.toNat then lookup s.sbox (s.bufByte i) else s.bufByte i

/-- R134, R130: INV_SUB completes; each byte below LEN becomes its INV entry, and nothing else changes but BUSY and DONE. -/
def Obligations.InvSubResult : Prop :=
  ∀ s : State, ∃ t, exec .invSub s = .next t ∧ Completed t ∧ SameButBuf s t ∧ SameHostSide s t ∧
    ∀ i, t.bufByte i = if i < s.len.toNat then lookup s.inv (s.bufByte i) else s.bufByte i

/-- R135, R130: ROTL3 completes; each byte below LEN is rotated left by 3 (bit k comes from bit k - 3 mod 8), and nothing else
changes but BUSY and DONE. -/
def Obligations.Rotl3Result : Prop :=
  ∀ s : State, ∃ t, exec .rotl3 s = .next t ∧ Completed t ∧ SameButBuf s t ∧ SameHostSide s t ∧
    (∀ i, s.len.toNat ≤ i → t.bufByte i = s.bufByte i) ∧
    ∀ i k, i < s.len.toNat → k < 8 → (t.bufByte i).getLsbD k = (s.bufByte i).getLsbD ((k + 5) % 8)

/-- R136, R130: ROTR3 completes; each byte below LEN is rotated right by 3 (bit k comes from bit k + 3 mod 8), and nothing else
changes but BUSY and DONE. -/
def Obligations.Rotr3Result : Prop :=
  ∀ s : State, ∃ t, exec .rotr3 s = .next t ∧ Completed t ∧ SameButBuf s t ∧ SameHostSide s t ∧
    (∀ i, s.len.toNat ≤ i → t.bufByte i = s.bufByte i) ∧
    ∀ i k, i < s.len.toNat → k < 8 → (t.bufByte i).getLsbD k = (s.bufByte i).getLsbD ((k + 3) % 8)

/-- R137, R130: REVERSE completes; byte i below LEN is what byte LEN - 1 - i was, and nothing else changes but BUSY and DONE. -/
def Obligations.ReverseResult : Prop :=
  ∀ s : State, ∃ t, exec .reverse s = .next t ∧ Completed t ∧ SameButBuf s t ∧ SameHostSide s t ∧
    (∀ i, s.len.toNat ≤ i → t.bufByte i = s.bufByte i) ∧
    ∀ i j, i + j + 1 = s.len.toNat → t.bufByte i = s.bufByte j

/-- R107, R105: BUILD_SBOX completes; SBOX is what PERM_GEN gives for the big-endian seed of DIGEST[0..3], INV undoes it,
SBOX_VALID is 1, and nothing else changes but BUSY and DONE, BUF and LEN included. -/
def Obligations.BuildSboxResult : Prop :=
  ∀ s : State, ∃ t, exec .buildSbox s = .next t ∧ Completed t ∧ SameButBufTables s t ∧ SameHostSide s t ∧
    SameBuf s t ∧ t.sboxValid = true ∧
    t.sbox = permGen (be32 (digestAt s.digest 0) (digestAt s.digest 1) (digestAt s.digest 2) (digestAt s.digest 3)) ∧
    (∀ x, lookup t.inv (lookup t.sbox x) = x)

/-- R160: ENCODE completes; with z[j] the rotated, substituted, keystream-XORed byte j, byte i below LEN is z[LEN-1-i]; the
tables used and left are those of the current digest; nothing else changes but BUSY and DONE. -/
def Obligations.EncodeResult : Prop :=
  ∀ s : State, ∃ t, exec .encode s = .next t ∧ Completed t ∧ SameButBufTables s t ∧ SameHostSide s t ∧
    t.sboxValid = true ∧ t.sbox = permGen (seedOf s.digest) ∧ (∀ x, lookup t.inv (lookup t.sbox x) = x) ∧
    (∀ i, s.len.toNat ≤ i → t.bufByte i = s.bufByte i) ∧
    ∀ i j, i + j + 1 = s.len.toNat →
      t.bufByte i = rotl3 (lookup (permGen (seedOf s.digest)) (s.bufByte j ^^^ ks s.digest j))

/-- R161: DECODE completes; byte i below LEN comes from byte LEN-1-i, rotated right, inverse-substituted and XORed with the
keystream byte of index i; the tables are those of the current digest; nothing else changes but BUSY and DONE. -/
def Obligations.DecodeResult : Prop :=
  ∀ s : State, ∃ t, exec .decode s = .next t ∧ Completed t ∧ SameButBufTables s t ∧ SameHostSide s t ∧
    t.sboxValid = true ∧ t.sbox = permGen (seedOf s.digest) ∧ (∀ x, lookup t.inv (lookup t.sbox x) = x) ∧
    (∀ i, s.len.toNat ≤ i → t.bufByte i = s.bufByte i) ∧
    ∀ i j, i + j + 1 = s.len.toNat → t.bufByte i = lookup t.inv (rotr3 (s.bufByte j)) ^^^ ks s.digest i

/-- R191, R38: every command, once in flight, completes with BUSY = 0 and DONE = 1, whatever the state holds. -/
def Obligations.EveryCommandCompletes : Prop :=
  ∀ (i : Instr) (s : State), ∃ t, exec i s = .next t ∧ Completed t ∧ t.err = s.err ∧ t.errcode = s.errcode

/-- R13, R166 and 95_test_vectors.md section 8 item 5: no command changes LEN or DIGEST, and none writes a byte of BUF at or
beyond LEN. -/
def Obligations.CommandsKeepLenDigestAndRestOfBuf : Prop :=
  ∀ (i : Instr) (s t : State), exec i s = .next t →
    t.len = s.len ∧ t.digest = s.digest ∧ ∀ k, s.len.toNat ≤ k → t.bufByte k = s.bufByte k

/-- R14: with LEN = 0 every command is legal (from an idle block it is accepted, SUB and INV_SUB with valid tables), completes,
and changes no byte of BUF. -/
def Obligations.EmptyInputChangesNoByte : Prop :=
  ∀ (i : Instr) (s : State), s.len = 0 →
    (∃ t, exec i s = .next t ∧ Completed t ∧ SameBuf s t) ∧
    (s.busy = false → (needsTables i = true → s.sboxValid = true) →
      ∃ t, runCommand i s = .next t ∧ Completed t ∧ SameBuf s t)

/-! ## Keystream, seed and tables -/

/-- R102, R103: the keystream byte, its period, its zeroes at multiples of 8, the all-equal digest, the digest that counts up,
and the prefix property. -/
def Obligations.KeystreamLaws : Prop :=
  ∀ (D : Vector Byte 32) (i n m : Nat),
    ks D (i + 32) = ks D i ∧ (i % 8 = 0 → ks D i = 0) ∧
    ((∀ j k, digestAt D j = digestAt D k) → ks D i = 0) ∧
    ((∀ k, k < 32 → digestAt D k = BitVec.ofNat 8 k) →
      ks D i = BitVec.ofNat 8 ((7 * i) % 32) ^^^ BitVec.ofNat 8 ((3 * i) % 32)) ∧
    (keystream D n).length = n ∧ (n ≤ m → keystream D n <+: keystream D m)

/-- R100: the seed is the first four digest bytes as a big-endian number, with no other digest byte in it, and the register SEED
reads it in every state. -/
def Obligations.SeedIsBigEndian : Prop :=
  ∀ s : State,
    (seedOf s.digest).toNat = (digestAt s.digest 0).toNat * 2 ^ 24 + (digestAt s.digest 1).toNat * 2 ^ 16 +
      (digestAt s.digest 2).toNat * 2 ^ 8 + (digestAt s.digest 3).toNat ∧
    s.readReg .seed = seedOf s.digest

/-- R104 (b): every generator, the CPY profile (R110) among them, gives for every seed an array with every value 0..255 at
exactly one index. -/
def Obligations.GeneratorsGivePermutations : Prop :=
  ∀ (g : Generator) (seed : Word) (v : Byte), ∃! x, lookup (Generator.table g seed) x = v

/-- R32, R110: PGEN_ID is never 0, and it is 1 exactly when the generator is PERM_GEN_CPY as a function of the seed (whose
value on a draw that never ends is free, log entry 3). -/
def Obligations.PgenIdTellsTheProfile : Prop :=
  ∀ g : Generator, Generator.id g ≠ 0 ∧
    (Generator.id g = 1 ↔ ∀ seed, Generator.table g seed = permGenCpy Config.cpyUnending seed)

/-- R115: a bounded draw of the CPY profile is below its bound. -/
def Obligations.BoundedDrawIsBelow : Prop :=
  ∀ (fuel n r : Nat) (g g' : CpyGen), randBelow fuel g n = some (r, g') → r < n

/-- R106: after every table build, by BUILD_SBOX, ENCODE or DECODE, SBOX and INV are inverse to each other on both sides. -/
def Obligations.BuiltTablesAreInverse : Prop :=
  ∀ (i : Instr) (s : State), i = .buildSbox ∨ i = .encode ∨ i = .decode →
    ∃ t, exec i s = .next t ∧ t.sboxValid = true ∧
      (∀ x, lookup t.inv (lookup t.sbox x) = x) ∧ (∀ y, lookup t.sbox (lookup t.inv y) = y)

/-- R108: ENCODE, DECODE and BUILD_SBOX leave the tables of one and the same BuildTables(SeedOf(DIGEST)), so they leave identical
tables for digests that agree on bytes 0 to 3, whatever else the states hold. -/
def Obligations.BuildersLeaveTheSameTables : Prop :=
  ∀ (i j : Instr) (s s' : State), (i = .buildSbox ∨ i = .encode ∨ i = .decode) → (j = .buildSbox ∨ j = .encode ∨ j = .decode) →
    (∀ k, k < 4 → digestAt s.digest k = digestAt s'.digest k) →
    ∃ t t', exec i s = .next t ∧ exec j s' = .next t' ∧ t.sbox = (buildTables (seedOf s.digest)).1 ∧
      t.inv = (buildTables (seedOf s.digest)).2 ∧ t'.sbox = t.sbox ∧ t'.inv = t.inv

/-! ## Laws of the stages and of the controller -/

/-- R138 items 1 to 4: each stage and its inverse, run through CMD, leave BUF as it was. -/
def Obligations.StagesUndoEachOther : Prop :=
  ∀ s : State, s.busy = false → s.len.toNat ≤ Config.bufBytes →
    (∀ is, is = [.rotl3, .rotr3] ∨ is = [.rotr3, .rotl3] ∨ is = [.ksXor, .ksXor] ∨ is = [.reverse, .reverse] ∨
        (s.sboxValid = true ∧ Inverse s.sbox s.inv ∧ (is = [.sub, .invSub] ∨ is = [.invSub, .sub])) →
      ∃ t, runAll is s = .next t ∧ Completed t ∧ SameBuf s t ∧ SameButBuf s { t with pending := s.pending })

/-- R138 items 5 and 6: SUB, INV_SUB, ROTL3 and ROTR3 commute with REVERSE; KS_XOR does not in every state. -/
def Obligations.ByteStagesCommuteWithReverse : Prop :=
  (∀ (s : State) (i : Instr), s.busy = false → s.len.toNat ≤ Config.bufBytes →
    (needsTables i = true → s.sboxValid = true) → i = .sub ∨ i = .invSub ∨ i = .rotl3 ∨ i = .rotr3 →
    ∃ t t', runAll [i, .reverse] s = .next t ∧ runAll [.reverse, i] s = .next t' ∧ SameBuf t t') ∧
  (∃ s t t' : State, s.busy = false ∧ s.len.toNat ≤ Config.bufBytes ∧
    runAll [.ksXor, .reverse] s = .next t ∧ runAll [.reverse, .ksXor] s = .next t' ∧ ¬ SameBuf t t')

/-- R163: ENCODE followed by DECODE, with DIGEST and LEN unchanged and BUF passed on byte for byte, restores every byte, for
every generator. -/
def Obligations.DecodeAfterEncodeRestores : Prop :=
  ∀ s : State, s.busy = false → s.len.toNat ≤ Config.bufBytes →
    ∃ t, runAll [.encode, .decode] s = .next t ∧ Completed t ∧ SameBuf s t ∧ t.len = s.len ∧ t.digest = s.digest

/-- R164: DECODE followed by ENCODE is the identity on BUF under the same conditions. -/
def Obligations.EncodeAfterDecodeRestores : Prop :=
  ∀ s : State, s.busy = false → s.len.toNat ≤ Config.bufBytes →
    ∃ t, runAll [.decode, .encode] s = .next t ∧ Completed t ∧ SameBuf s t ∧ t.len = s.len ∧ t.digest = s.digest

/-- R165: the single stages, run through CMD, compose to ENCODE and to DECODE: the same BUF, SBOX, INV and SBOX_VALID, and the
same STATUS. -/
def Obligations.StagesComposeToThePipeline : Prop :=
  ∀ (s : State) (i : Instr) (is : List Instr), s.busy = false → s.len.toNat ≤ Config.bufBytes →
    (i = .encode ∧ is = [.buildSbox, .ksXor, .sub, .rotl3, .reverse]) ∨
      (i = .decode ∧ is = [.buildSbox, .reverse, .rotr3, .invSub, .ksXor]) →
    ∃ t u, runAll [i] s = .next t ∧ runAll is s = .next u ∧ SameBuf t u ∧ u.sbox = t.sbox ∧ u.inv = t.inv ∧
      u.sboxValid = t.sboxValid ∧ u.statusWord = t.statusWord ∧ u.digest = t.digest ∧ u.len = t.len

/-- R168: ENCODE's output depends on DIGEST only through the seed and the digest bytes the keystream indexes below n. -/
def Obligations.EncodeDependsOnlyOnIndexedBytes : Prop :=
  ∀ s s' : State, s.len = s'.len → (∀ k, k < s.len.toNat → s.bufByte k = s'.bufByte k) →
    seedOf s.digest = seedOf s'.digest →
    (∀ i, i < s.len.toNat → digestAt s.digest (7 * i) = digestAt s'.digest (7 * i) ∧
      digestAt s.digest (3 * i) = digestAt s'.digest (3 * i)) →
    ∃ t t', exec .encode s = .next t ∧ exec .encode s' = .next t' ∧
      ∀ k, k < s.len.toNat → t.bufByte k = t'.bufByte k

/-! ## The host window -/

/-- R5, R7, R50: BUF_BYTES is a multiple of 4 from 4 to 65536, and the window is the 0x20000 host addresses from BASE, which is
aligned to 0x20000. -/
def Obligations.ParametersAreLegal : Prop :=
  Config.bufBytes % 4 = 0 ∧ 4 ≤ Config.bufBytes ∧ Config.bufBytes ≤ 65536 ∧ Config.base % 0x20000 = 0 ∧
  (∀ off : BitVec 17, windowOffset (Config.base + off.toNat) = some off) ∧
  (∀ addr, addr < Config.base ∨ Config.base + 0x20000 ≤ addr → windowOffset addr = none)

/-- R51, R54: an aligned transaction stays in the region it begins in, in the register region in one register, and in an array its
bytes are consecutive entries. -/
def Obligations.AlignedTransactionsNeverStraddle : Prop :=
  ∀ (off : BitVec 17) (n : Width) (j k : Nat), off.toNat % n.bytes = 0 → j < n.bytes →
    (off + BitVec.ofNat 17 j).toNat = off.toNat + j ∧
    (∀ r, regionOf off = .register r → regionOf (off + BitVec.ofNat 17 j) = .register r) ∧
    (regionOf off = .digest k → k + j < 32 ∧ regionOf (off + BitVec.ofNat 17 j) = .digest (k + j)) ∧
    (regionOf off = .sbox k → k + j < 256 ∧ regionOf (off + BitVec.ofNat 17 j) = .sbox (k + j)) ∧
    (regionOf off = .inv k → k + j < 256 ∧ regionOf (off + BitVec.ofNat 17 j) = .inv (k + j)) ∧
    (regionOf off = .buf k → k + j < Config.bufBytes ∧ regionOf (off + BitVec.ofNat 17 j) = .buf (k + j)) ∧
    (regionOf off = .reserved → regionOf (off + BitVec.ofNat 17 j) = .reserved)

/-- R53, R54, R55: a misaligned transaction, or one of a width other than 4 at a register offset, is a bus error; every other
transaction is served. -/
def Obligations.BusErrorExactlyWhenIllegal : Prop :=
  ∀ (s : State) (x : Transaction) (rest : List Event), s.inbox = .host x :: rest →
    (x.off.toNat % x.width.bytes ≠ 0 ∨ (x.off.toNat < 0x20 ∧ x.width ≠ .four) → step s = .fault (.busError x.off)) ∧
    (x.off.toNat % x.width.bytes = 0 → (x.off.toNat < 0x20 → x.width = .four) → ∃ t, step s = .next t)

/-- R56, R23, R28 to R34: what a 4-byte read of each register returns, in every state, busy or not. -/
def Obligations.RegisterReads : Prop :=
  ∀ (s : State) (rest : List Event) (off : BitVec 17) (v : Word),
    (off, v) ∈ [(0x00000, 0x43525950), (0x00004, s.ctrlWord), (0x00008, s.statusWord), (0x0000C, 0), (0x00010, s.len),
      (0x00014, seedOf s.digest), (0x00018, BitVec.ofNat 32 Config.bufBytes), (0x0001C, Generator.id Config.generator)] →
    s.inbox = .host (.read .four off) :: rest →
    step s = .next { s with inbox := rest, rdata := some (.word v) }

/-- R29, R30: the places of the bits of CTRL and STATUS; reserved bits read 0. -/
def Obligations.ControlWordLayout : Prop :=
  ∀ s : State,
    (s.statusWord.getLsbD 0 = s.busy ∧ s.statusWord.getLsbD 1 = s.done ∧ s.statusWord.getLsbD 2 = s.err ∧
      s.statusWord.getLsbD 3 = s.sboxValid ∧ s.statusWord.extractLsb' 4 4 = 0 ∧ s.statusWord.extractLsb' 8 4 = s.errcode ∧
      s.statusWord.extractLsb' 12 20 = 0) ∧
    s.ctrlWord.getLsbD 0 = s.irqEn ∧ s.ctrlWord.extractLsb' 1 31 = 0

/-- R56, R57: an aligned read of an array returns its bytes with the lowest offset in bits 7:0, 1, 2 or 4 of them: DIGEST in
every state, BUF, SBOX and INV while BUSY = 0. -/
def Obligations.ArrayReads : Prop :=
  ∀ (s : State) (rest : List Event) (n : Width) (off : BitVec 17) (k : Nat),
    off.toNat % n.bytes = 0 → s.inbox = .host (.read n off) :: rest →
    (off.toNat = 0x20 + k → k < 32 →
      step s = .next { s with inbox := rest, rdata := some (packLE n fun j => digestAt s.digest (k + j)) }) ∧
    (s.busy = false → off.toNat = 0x400 + k → k < 256 →
      step s = .next { s with inbox := rest, rdata := some (packLE n fun j => lookup s.sbox (BitVec.ofNat 8 (k + j))) }) ∧
    (s.busy = false → off.toNat = 0x500 + k → k < 256 →
      step s = .next { s with inbox := rest, rdata := some (packLE n fun j => lookup s.inv (BitVec.ofNat 8 (k + j))) }) ∧
    (s.busy = false → off.toNat = 0x10000 + k → k < Config.bufBytes →
      step s = .next { s with inbox := rest, rdata := some (packLE n fun j => s.bufByte (k + j)) })

/-- R57: the packing of a bus value, as a number, and that its bytes come apart as they were put together. -/
def Obligations.PackingIsLittleEndian : Prop :=
  ∀ b : Nat → Byte,
    (packLE .one b).value.toNat = (b 0).toNat ∧
    (packLE .two b).value.toNat = (b 0).toNat + 2 ^ 8 * (b 1).toNat ∧
    (packLE .four b).value.toNat =
      (b 0).toNat + 2 ^ 8 * (b 1).toNat + 2 ^ 16 * (b 2).toNat + 2 ^ 24 * (b 3).toNat ∧
    ∀ n, (packLE n b).bytes = (List.range n.bytes).map b

/-- R56, R216: while BUSY = 1 a read of BUF, SBOX or INV is served, changes no state of the block, and returns some value of its
width, about which nothing is said (a free value, log entry 6). -/
def Obligations.BusyArrayReadsAreDraws : Prop :=
  ∀ (s : State) (rest : List Event) (n : Width) (off : BitVec 17),
    s.busy = true → off.toNat % n.bytes = 0 →
    (0x400 ≤ off.toNat ∧ off.toNat < 0x600) ∨ (0x10000 ≤ off.toNat ∧ off.toNat < 0x10000 + Config.bufBytes) →
    s.inbox = .host (.read n off) :: rest →
    ∃ d : BusData, d.width = n ∧ step s = .next { s with inbox := rest, rdata := some d, draws := s.draws + 1 }

/-- R59: no read has a side effect: only the model's own record of what the host read and its count of draws change. -/
def Obligations.ReadsChangeNoState : Prop :=
  ∀ (s t : State) (rest : List Event) (n : Width) (off : BitVec 17),
    s.inbox = .host (.read n off) :: rest → step s = .next t →
    t = { s with inbox := rest, rdata := t.rdata, draws := t.draws }

/-- R58: in reserved space every read returns 0 and every write is ignored, and so is every write to SBOX, INV, ID, SEED, CAP
and PGEN_ID; no error is recorded, busy or not. -/
def Obligations.ReservedAndReadOnlyIgnoreWrites : Prop :=
  ∀ (s : State) (rest : List Event) (n : Width) (off : BitVec 17) (d : BusData),
    ((0x40 ≤ off.toNat ∧ off.toNat < 0x400) ∨ (0x600 ≤ off.toNat ∧ off.toNat < 0x10000) ∨
        0x10000 + Config.bufBytes ≤ off.toNat →
      off.toNat % n.bytes = 0 → s.inbox = .host (.read n off) :: rest →
      step s = .next { s with inbox := rest, rdata := some (packLE n fun _ => 0) }) ∧
    ((0x40 ≤ off.toNat ∧ off.toNat < 0x10000) ∨ 0x10000 + Config.bufBytes ≤ off.toNat ∨
        (d.width = .four ∧ (off = 0x00000 ∨ off = 0x00014 ∨ off = 0x00018 ∨ off = 0x0001C)) →
      off.toNat % d.width.bytes = 0 → s.inbox = .host (.write off d) :: rest →
      step s = .next (s.thenTurns rest))

/-- R43, R22: a write of any width to DIGEST while BUSY = 0 stores its bytes, lowest offset first, clears SBOX_VALID, and
changes nothing else; while BUSY = 1 it is dropped whole with BUSY_ACCESS. -/
def Obligations.DigestWriteStoresAndInvalidates : Prop :=
  ∀ (s : State) (rest : List Event) (off : BitVec 17) (d : BusData) (k : Nat),
    off.toNat = 0x20 + k → k < 32 → off.toNat % d.width.bytes = 0 → s.inbox = .host (.write off d) :: rest →
    (s.busy = false → ∃ D : Vector Byte 32,
      step s = .next { s with inbox := rest, digest := D, sboxValid := false } ∧
      ∀ j, j < 32 → digestAt D j = if h : k ≤ j ∧ j - k < d.bytes.length then d.bytes[j - k]'h.2 else digestAt s.digest j) ∧
    (s.busy = true → step s = .next { s with inbox := rest, err := true, errcode := 6 })

/-- R27, R56: a write of any width to BUF while BUSY = 0 stores its bytes, lowest offset first; every other byte of BUF and
everything else is unchanged. -/
def Obligations.BufWriteStores : Prop :=
  ∀ (s : State) (rest : List Event) (off : BitVec 17) (d : BusData) (k : Nat),
    s.busy = false → off.toNat = 0x10000 + k → k < Config.bufBytes → off.toNat % d.width.bytes = 0 →
    s.inbox = .host (.write off d) :: rest →
    ∃ m, step s = .next { s with inbox := rest, buf := m } ∧
      ∀ j, State.bufByte { s with inbox := rest, buf := m } j =
        if h : k ≤ j ∧ j - k < d.bytes.length then d.bytes[j - k]'h.2 else s.bufByte j

/-- R28: a 4-byte write to LEN while BUSY = 0 stores all 32 bits, whatever the value, and changes nothing else. -/
def Obligations.LenWriteStoresAllBits : Prop :=
  ∀ (s : State) (rest : List Event) (v : Word), s.busy = false → s.inbox = .host (.write 0x00010 (.word v)) :: rest →
    step s = .next { s with inbox := rest, len := v }

/-- R189: while BUSY = 1 a write to LEN, DIGEST or BUF is dropped whole: ERR and ERRCODE = 6 are recorded and nothing else,
DONE and SBOX_VALID included, changes. -/
def Obligations.BusyAccessIsDropped : Prop :=
  ∀ (s : State) (rest : List Event) (off : BitVec 17) (d : BusData),
    s.busy = true → off.toNat % d.width.bytes = 0 →
    (off = 0x00010 ∧ d.width = .four) ∨ (0x20 ≤ off.toNat ∧ off.toNat < 0x40) ∨
      (0x10000 ≤ off.toNat ∧ off.toNat < 0x10000 + Config.bufBytes) →
    s.inbox = .host (.write off d) :: rest →
    step s = .next { s with inbox := rest, err := true, errcode := 6 }

/-- R41: a write to STATUS, in every state, clears DONE with bit 1 and ERR and ERRCODE with bit 2, and does nothing else. -/
def Obligations.StatusWriteClears : Prop :=
  ∀ (s : State) (rest : List Event) (v : Word), s.inbox = .host (.write 0x00008 (.word v)) :: rest →
    step s = .next { s with
      inbox := rest
      done := if v.getLsbD 1 = true then false else s.done
      err := if v.getLsbD 2 = true then false else s.err
      errcode := if v.getLsbD 2 = true then 0 else s.errcode }

/-- R42: a write to CTRL, in every state, sets IRQ_EN to bit 0 and then, if bit 1 is set, performs the soft reset, which leaves
IRQ_EN as written; the other bits are ignored. -/
def Obligations.CtrlWriteSetsIrqEnThenResets : Prop :=
  ∀ (s : State) (rest : List Event) (v : Word), s.inbox = .host (.write 0x00004 (.word v)) :: rest →
    step s = .next (if v.getLsbD 1 = true then State.softReset { s with inbox := rest, irqEn := v.getLsbD 0 }
      else { s with inbox := rest, irqEn := v.getLsbD 0 }) ∧
    (State.softReset { s with inbox := rest, irqEn := v.getLsbD 0 }).irqEn = v.getLsbD 0

/-- R213: a soft reset clears BUSY, DONE, ERR, ERRCODE and SBOX_VALID; DIGEST, LEN, IRQ_EN and BUF from LEN up are unchanged;
all of BUF is unchanged when no transforming command was in flight, and SBOX and INV when no build was. Of the bytes that
become `any()` nothing is said. That PENDING keeps its value is not in R213's list: it is the model's (log entry 20, DEDUCED), and
so are the model's own fields `rdata` and `inbox` (log entries 7 and 8). -/
def Obligations.SoftResetEffect : Prop :=
  ∀ s : State,
    (let t := s.softReset
     t.busy = false ∧ t.done = false ∧ t.err = false ∧ t.errcode = 0 ∧ t.sboxValid = false ∧
     t.digest = s.digest ∧ t.len = s.len ∧ t.irqEn = s.irqEn ∧ t.pending = s.pending ∧ t.rdata = s.rdata ∧ t.inbox = s.inbox ∧
     (∀ k, s.len.toNat ≤ k → t.bufByte k = s.bufByte k) ∧
     (s.busy = false ∨ s.pending ∉ [0x02, 0x03, 0x04, 0x05, 0x06, 0x07, 0x10, 0x11] → SameBuf s t) ∧
     (s.busy = false ∨ s.pending ∉ [0x01, 0x10, 0x11] → t.sbox = s.sbox ∧ t.inv = s.inv))

/-- R192, R37: irq is IRQ_EN and (DONE or ERR): a CTRL write that sets IRQ_EN while DONE or ERR is 1 raises it at once, and a
STATUS write that clears both drops it. -/
def Obligations.IrqFollowsItsCauses : Prop :=
  ∀ (s : State) (rest : List Event) (v : Word),
    s.irq = (s.irqEn && (s.done || s.err)) ∧
    (v.getLsbD 0 = true → v.getLsbD 1 = false → s.inbox = .host (.write 0x00004 (.word v)) :: rest →
      ∃ t, step s = .next t ∧ t.irq = (s.done || s.err)) ∧
    (v.getLsbD 1 = true → v.getLsbD 2 = true → s.inbox = .host (.write 0x00008 (.word v)) :: rest →
      ∃ t, step s = .next t ∧ t.irq = false)

/-! ## Reset -/

/-- R210: what a hard reset leaves, of the state the spec gives a value for; BUF, SBOX, INV and PENDING are left to any value.
It holds of the model's first state and of the state after a hard reset at any time. -/
def Obligations.HardResetValues : Prop :=
  ∀ (s : State) (rest : List Event), s.inbox = .hardReset :: rest →
    ∃ r, step s = .next r ∧ r.inbox = rest ∧
    ∀ t, t = r ∨ t = State.reset →
      (∀ k, digestAt t.digest k = 0) ∧ seedOf t.digest = 0 ∧ t.sboxValid = false ∧ t.len = 0 ∧ t.ctrlWord = 0 ∧
      t.statusWord = 0 ∧ t.irq = false ∧ t.readReg .cap = BitVec.ofNat 32 Config.bufBytes ∧
      t.readReg .pgenId = Generator.id Config.generator ∧ t.readReg .id = 0x43525950

/-! ## Whole-machine rules -/

/-- 95_test_vectors.md section 8 item 5 (BUSY and DONE exclude each other, ERRCODE is 0 without ERR and in 0..6, the stored
tables are those of the current digest while SBOX_VALID = 1), with what R183 established of the command in flight and the
canonical form of BUF (log entry 14): the launch state has it. -/
def Obligations.InvariantHoldsAtReset : Prop := State.reset.Inv

/-- The same invariant is kept by every step, from every state that has it. -/
def Obligations.InvariantKeptByEveryStep : Prop :=
  ∀ s t : State, s.Inv → step s = .next t → t.Inv

/-- R191, R55: from a state with the invariant a step is never refused, and it faults only on a host transaction that R53 or R54
forbids. -/
def Obligations.OnlyBusErrorsStopARun : Prop :=
  ∀ s : State, s.Inv →
    (∃ t, step s = .next t) ∨
    (∃ x rest, s.inbox = .host x :: rest ∧ step s = .fault (.busError x.off) ∧
      (x.off.toNat % x.width.bytes ≠ 0 ∨ (x.off.toNat < 0x20 ∧ x.width ≠ .four)))

/-- R191, R212 and R26: BUSY falls only at CORE's turn, at a soft reset or at a hard reset; SBOX_VALID rises only at CORE's turn
with a table-building command in flight, and falls only at a reset or at a write to DIGEST while BUSY = 0. -/
def Obligations.OnlyTheseEventsChangeBusyAndSboxValid : Prop :=
  ∀ s t : State, step s = .next t →
    (s.busy = true → t.busy = false → s.turn = .core ∨ s.turn = .hardReset ∨ s.turn.isSoftReset) ∧
    (s.sboxValid = false → t.sboxValid = true →
      s.turn = .core ∧ s.busy = true ∧ (s.pending = 0x01 ∨ s.pending = 0x10 ∨ s.pending = 0x11)) ∧
    (s.sboxValid = true → t.sboxValid = false → s.turn = .hardReset ∨ s.turn.isSoftReset ∨
      (s.busy = false ∧ ∃ off d, s.turn = .host (.write off d) ∧ 0x20 ≤ off.toNat ∧ off.toNat < 0x40))

/-- R191, R222: a command in flight completes at CORE's next turn, whatever turns come after. That CORE's turn comes is the
spec's fairness; with no other turn left the model gives it (log entry 7). -/
def Obligations.CommandInFlightCompletes : Prop :=
  ∀ (s : State) (rest : List Event), s.Inv → s.busy = true → s.inbox = .core :: rest ∨ s.inbox = [] →
    ∃ t, step s = .next t ∧ Completed t

/-- R194: a W1C write that clears DONE and the completion come in either order: completion first ends with DONE = 0, the write
first with DONE = 1. -/
def Obligations.DoneRaceAllowsBothOrders : Prop :=
  ∀ (s : State) (i : Instr) (v : Word) (rest : List Event), s.busy = true → s.pending = opcode i → v.getLsbD 1 = true →
    (s.inbox = .core :: .host (.write 0x00008 (.word v)) :: rest →
      ∃ t u, step s = .next t ∧ step t = .next u ∧ u.busy = false ∧ u.done = false) ∧
    (s.inbox = .host (.write 0x00008 (.word v)) :: .core :: rest →
      ∃ t u, step s = .next t ∧ step t = .next u ∧ u.busy = false ∧ u.done = true)
end

