-- ==== Sys2Proof/Laws/State.lean ====
section
/-! SUPPORT. One lemma per field and per named update of State, each true by unfolding, so that no later proof unfolds a
record update. -/

namespace Sys2Proof.Machine

variable (s : State)

@[simp] theorem State.record_digest (c : ErrCode) : (s.record c).digest = s.digest := rfl
@[simp] theorem State.record_sbox (c : ErrCode) : (s.record c).sbox = s.sbox := rfl
@[simp] theorem State.record_inv (c : ErrCode) : (s.record c).inv = s.inv := rfl
@[simp] theorem State.record_sboxValid (c : ErrCode) : (s.record c).sboxValid = s.sboxValid := rfl
@[simp] theorem State.record_buf (c : ErrCode) : (s.record c).buf = s.buf := rfl
@[simp] theorem State.record_len (c : ErrCode) : (s.record c).len = s.len := rfl
@[simp] theorem State.record_irqEn (c : ErrCode) : (s.record c).irqEn = s.irqEn := rfl
@[simp] theorem State.record_busy (c : ErrCode) : (s.record c).busy = s.busy := rfl
@[simp] theorem State.record_done (c : ErrCode) : (s.record c).done = s.done := rfl
@[simp] theorem State.record_err (c : ErrCode) : (s.record c).err = true := rfl
@[simp] theorem State.record_errcode (c : ErrCode) : (s.record c).errcode = c.code := rfl
@[simp] theorem State.record_pending (c : ErrCode) : (s.record c).pending = s.pending := rfl
@[simp] theorem State.record_bufDraw (c : ErrCode) : (s.record c).bufDraw = s.bufDraw := rfl
@[simp] theorem State.record_draws (c : ErrCode) : (s.record c).draws = s.draws := rfl
@[simp] theorem State.record_rdata (c : ErrCode) : (s.record c).rdata = s.rdata := rfl
@[simp] theorem State.record_inbox (c : ErrCode) : (s.record c).inbox = s.inbox := rfl

@[simp] theorem State.accept_digest (op : Byte) : (s.accept op).digest = s.digest := rfl
@[simp] theorem State.accept_sbox (op : Byte) : (s.accept op).sbox = s.sbox := rfl
@[simp] theorem State.accept_inv (op : Byte) : (s.accept op).inv = s.inv := rfl
@[simp] theorem State.accept_sboxValid (op : Byte) : (s.accept op).sboxValid = s.sboxValid := rfl
@[simp] theorem State.accept_buf (op : Byte) : (s.accept op).buf = s.buf := rfl
@[simp] theorem State.accept_len (op : Byte) : (s.accept op).len = s.len := rfl
@[simp] theorem State.accept_irqEn (op : Byte) : (s.accept op).irqEn = s.irqEn := rfl
@[simp] theorem State.accept_busy (op : Byte) : (s.accept op).busy = true := rfl
@[simp] theorem State.accept_done (op : Byte) : (s.accept op).done = false := rfl
@[simp] theorem State.accept_err (op : Byte) : (s.accept op).err = s.err := rfl
@[simp] theorem State.accept_errcode (op : Byte) : (s.accept op).errcode = s.errcode := rfl
@[simp] theorem State.accept_pending (op : Byte) : (s.accept op).pending = op := rfl
@[simp] theorem State.accept_bufDraw (op : Byte) : (s.accept op).bufDraw = s.bufDraw := rfl
@[simp] theorem State.accept_draws (op : Byte) : (s.accept op).draws = s.draws := rfl
@[simp] theorem State.accept_rdata (op : Byte) : (s.accept op).rdata = s.rdata := rfl
@[simp] theorem State.accept_inbox (op : Byte) : (s.accept op).inbox = s.inbox := rfl

@[simp] theorem State.complete_digest : s.complete.digest = s.digest := rfl
@[simp] theorem State.complete_sbox : s.complete.sbox = s.sbox := rfl
@[simp] theorem State.complete_inv : s.complete.inv = s.inv := rfl
@[simp] theorem State.complete_sboxValid : s.complete.sboxValid = s.sboxValid := rfl
@[simp] theorem State.complete_buf : s.complete.buf = s.buf := rfl
@[simp] theorem State.complete_len : s.complete.len = s.len := rfl
@[simp] theorem State.complete_irqEn : s.complete.irqEn = s.irqEn := rfl
@[simp] theorem State.complete_busy : s.complete.busy = false := rfl
@[simp] theorem State.complete_done : s.complete.done = true := rfl
@[simp] theorem State.complete_err : s.complete.err = s.err := rfl
@[simp] theorem State.complete_errcode : s.complete.errcode = s.errcode := rfl
@[simp] theorem State.complete_pending : s.complete.pending = s.pending := rfl
@[simp] theorem State.complete_bufDraw : s.complete.bufDraw = s.bufDraw := rfl
@[simp] theorem State.complete_draws : s.complete.draws = s.draws := rfl
@[simp] theorem State.complete_rdata : s.complete.rdata = s.rdata := rfl
@[simp] theorem State.complete_inbox : s.complete.inbox = s.inbox := rfl

@[simp] theorem State.install_digest (S I : Vector Byte 256) : (s.install S I).digest = s.digest := rfl
@[simp] theorem State.install_sbox (S I : Vector Byte 256) : (s.install S I).sbox = S := rfl
@[simp] theorem State.install_inv (S I : Vector Byte 256) : (s.install S I).inv = I := rfl
@[simp] theorem State.install_sboxValid (S I : Vector Byte 256) : (s.install S I).sboxValid = true := rfl
@[simp] theorem State.install_buf (S I : Vector Byte 256) : (s.install S I).buf = s.buf := rfl
@[simp] theorem State.install_len (S I : Vector Byte 256) : (s.install S I).len = s.len := rfl
@[simp] theorem State.install_irqEn (S I : Vector Byte 256) : (s.install S I).irqEn = s.irqEn := rfl
@[simp] theorem State.install_busy (S I : Vector Byte 256) : (s.install S I).busy = s.busy := rfl
@[simp] theorem State.install_done (S I : Vector Byte 256) : (s.install S I).done = s.done := rfl
@[simp] theorem State.install_err (S I : Vector Byte 256) : (s.install S I).err = s.err := rfl
@[simp] theorem State.install_errcode (S I : Vector Byte 256) : (s.install S I).errcode = s.errcode := rfl
@[simp] theorem State.install_pending (S I : Vector Byte 256) : (s.install S I).pending = s.pending := rfl
@[simp] theorem State.install_bufDraw (S I : Vector Byte 256) : (s.install S I).bufDraw = s.bufDraw := rfl
@[simp] theorem State.install_draws (S I : Vector Byte 256) : (s.install S I).draws = s.draws := rfl
@[simp] theorem State.install_rdata (S I : Vector Byte 256) : (s.install S I).rdata = s.rdata := rfl
@[simp] theorem State.install_inbox (S I : Vector Byte 256) : (s.install S I).inbox = s.inbox := rfl

@[simp] theorem State.rewrite_digest (n : Nat) (f : Nat → Byte) : (s.rewrite n f).digest = s.digest := rfl
@[simp] theorem State.rewrite_sbox (n : Nat) (f : Nat → Byte) : (s.rewrite n f).sbox = s.sbox := rfl
@[simp] theorem State.rewrite_inv (n : Nat) (f : Nat → Byte) : (s.rewrite n f).inv = s.inv := rfl
@[simp] theorem State.rewrite_sboxValid (n : Nat) (f : Nat → Byte) : (s.rewrite n f).sboxValid = s.sboxValid := rfl
@[simp] theorem State.rewrite_buf (n : Nat) (f : Nat → Byte) : (s.rewrite n f).buf = Memory.writeBytes s.buf 0 ((List.range n).map f) := rfl
@[simp] theorem State.rewrite_len (n : Nat) (f : Nat → Byte) : (s.rewrite n f).len = s.len := rfl
@[simp] theorem State.rewrite_irqEn (n : Nat) (f : Nat → Byte) : (s.rewrite n f).irqEn = s.irqEn := rfl
@[simp] theorem State.rewrite_busy (n : Nat) (f : Nat → Byte) : (s.rewrite n f).busy = s.busy := rfl
@[simp] theorem State.rewrite_done (n : Nat) (f : Nat → Byte) : (s.rewrite n f).done = s.done := rfl
@[simp] theorem State.rewrite_err (n : Nat) (f : Nat → Byte) : (s.rewrite n f).err = s.err := rfl
@[simp] theorem State.rewrite_errcode (n : Nat) (f : Nat → Byte) : (s.rewrite n f).errcode = s.errcode := rfl
@[simp] theorem State.rewrite_pending (n : Nat) (f : Nat → Byte) : (s.rewrite n f).pending = s.pending := rfl
@[simp] theorem State.rewrite_bufDraw (n : Nat) (f : Nat → Byte) : (s.rewrite n f).bufDraw = s.bufDraw := rfl
@[simp] theorem State.rewrite_draws (n : Nat) (f : Nat → Byte) : (s.rewrite n f).draws = s.draws := rfl
@[simp] theorem State.rewrite_rdata (n : Nat) (f : Nat → Byte) : (s.rewrite n f).rdata = s.rdata := rfl
@[simp] theorem State.rewrite_inbox (n : Nat) (f : Nat → Byte) : (s.rewrite n f).inbox = s.inbox := rfl

@[simp] theorem State.answer_digest (d : BusData) : (s.answer d).digest = s.digest := rfl
@[simp] theorem State.answer_sbox (d : BusData) : (s.answer d).sbox = s.sbox := rfl
@[simp] theorem State.answer_inv (d : BusData) : (s.answer d).inv = s.inv := rfl
@[simp] theorem State.answer_sboxValid (d : BusData) : (s.answer d).sboxValid = s.sboxValid := rfl
@[simp] theorem State.answer_buf (d : BusData) : (s.answer d).buf = s.buf := rfl
@[simp] theorem State.answer_len (d : BusData) : (s.answer d).len = s.len := rfl
@[simp] theorem State.answer_irqEn (d : BusData) : (s.answer d).irqEn = s.irqEn := rfl
@[simp] theorem State.answer_busy (d : BusData) : (s.answer d).busy = s.busy := rfl
@[simp] theorem State.answer_done (d : BusData) : (s.answer d).done = s.done := rfl
@[simp] theorem State.answer_err (d : BusData) : (s.answer d).err = s.err := rfl
@[simp] theorem State.answer_errcode (d : BusData) : (s.answer d).errcode = s.errcode := rfl
@[simp] theorem State.answer_pending (d : BusData) : (s.answer d).pending = s.pending := rfl
@[simp] theorem State.answer_bufDraw (d : BusData) : (s.answer d).bufDraw = s.bufDraw := rfl
@[simp] theorem State.answer_draws (d : BusData) : (s.answer d).draws = s.draws := rfl
@[simp] theorem State.answer_rdata (d : BusData) : (s.answer d).rdata = some d := rfl
@[simp] theorem State.answer_inbox (d : BusData) : (s.answer d).inbox = s.inbox := rfl

@[simp] theorem State.answerAny_digest (n : Width) : (s.answerAny n).digest = s.digest := rfl
@[simp] theorem State.answerAny_sbox (n : Width) : (s.answerAny n).sbox = s.sbox := rfl
@[simp] theorem State.answerAny_inv (n : Width) : (s.answerAny n).inv = s.inv := rfl
@[simp] theorem State.answerAny_sboxValid (n : Width) : (s.answerAny n).sboxValid = s.sboxValid := rfl
@[simp] theorem State.answerAny_buf (n : Width) : (s.answerAny n).buf = s.buf := rfl
@[simp] theorem State.answerAny_len (n : Width) : (s.answerAny n).len = s.len := rfl
@[simp] theorem State.answerAny_irqEn (n : Width) : (s.answerAny n).irqEn = s.irqEn := rfl
@[simp] theorem State.answerAny_busy (n : Width) : (s.answerAny n).busy = s.busy := rfl
@[simp] theorem State.answerAny_done (n : Width) : (s.answerAny n).done = s.done := rfl
@[simp] theorem State.answerAny_err (n : Width) : (s.answerAny n).err = s.err := rfl
@[simp] theorem State.answerAny_errcode (n : Width) : (s.answerAny n).errcode = s.errcode := rfl
@[simp] theorem State.answerAny_pending (n : Width) : (s.answerAny n).pending = s.pending := rfl
@[simp] theorem State.answerAny_bufDraw (n : Width) : (s.answerAny n).bufDraw = s.bufDraw := rfl
@[simp] theorem State.answerAny_draws (n : Width) : (s.answerAny n).draws = s.draws + 1 := rfl
@[simp] theorem State.answerAny_rdata (n : Width) : (s.answerAny n).rdata = some (packLE n (Config.any s.draws)) := rfl
@[simp] theorem State.answerAny_inbox (n : Width) : (s.answerAny n).inbox = s.inbox := rfl

@[simp] theorem State.writeStatus_digest (v : Word) : (s.writeStatus v).digest = s.digest := rfl
@[simp] theorem State.writeStatus_sbox (v : Word) : (s.writeStatus v).sbox = s.sbox := rfl
@[simp] theorem State.writeStatus_inv (v : Word) : (s.writeStatus v).inv = s.inv := rfl
@[simp] theorem State.writeStatus_sboxValid (v : Word) : (s.writeStatus v).sboxValid = s.sboxValid := rfl
@[simp] theorem State.writeStatus_buf (v : Word) : (s.writeStatus v).buf = s.buf := rfl
@[simp] theorem State.writeStatus_len (v : Word) : (s.writeStatus v).len = s.len := rfl
@[simp] theorem State.writeStatus_irqEn (v : Word) : (s.writeStatus v).irqEn = s.irqEn := rfl
@[simp] theorem State.writeStatus_busy (v : Word) : (s.writeStatus v).busy = s.busy := rfl
@[simp] theorem State.writeStatus_done (v : Word) : (s.writeStatus v).done = if v.getLsbD 1 then false else s.done := rfl
@[simp] theorem State.writeStatus_err (v : Word) : (s.writeStatus v).err = if v.getLsbD 2 then false else s.err := rfl
@[simp] theorem State.writeStatus_errcode (v : Word) : (s.writeStatus v).errcode = if v.getLsbD 2 then 0 else s.errcode := rfl
@[simp] theorem State.writeStatus_pending (v : Word) : (s.writeStatus v).pending = s.pending := rfl
@[simp] theorem State.writeStatus_bufDraw (v : Word) : (s.writeStatus v).bufDraw = s.bufDraw := rfl
@[simp] theorem State.writeStatus_draws (v : Word) : (s.writeStatus v).draws = s.draws := rfl
@[simp] theorem State.writeStatus_rdata (v : Word) : (s.writeStatus v).rdata = s.rdata := rfl
@[simp] theorem State.writeStatus_inbox (v : Word) : (s.writeStatus v).inbox = s.inbox := rfl

@[simp] theorem State.writeDigest_digest (k : Nat) (bs : List Byte) : (s.writeDigest k bs).digest = putDigest s.digest k bs := rfl
@[simp] theorem State.writeDigest_sbox (k : Nat) (bs : List Byte) : (s.writeDigest k bs).sbox = s.sbox := rfl
@[simp] theorem State.writeDigest_inv (k : Nat) (bs : List Byte) : (s.writeDigest k bs).inv = s.inv := rfl
@[simp] theorem State.writeDigest_sboxValid (k : Nat) (bs : List Byte) : (s.writeDigest k bs).sboxValid = false := rfl
@[simp] theorem State.writeDigest_buf (k : Nat) (bs : List Byte) : (s.writeDigest k bs).buf = s.buf := rfl
@[simp] theorem State.writeDigest_len (k : Nat) (bs : List Byte) : (s.writeDigest k bs).len = s.len := rfl
@[simp] theorem State.writeDigest_irqEn (k : Nat) (bs : List Byte) : (s.writeDigest k bs).irqEn = s.irqEn := rfl
@[simp] theorem State.writeDigest_busy (k : Nat) (bs : List Byte) : (s.writeDigest k bs).busy = s.busy := rfl
@[simp] theorem State.writeDigest_done (k : Nat) (bs : List Byte) : (s.writeDigest k bs).done = s.done := rfl
@[simp] theorem State.writeDigest_err (k : Nat) (bs : List Byte) : (s.writeDigest k bs).err = s.err := rfl
@[simp] theorem State.writeDigest_errcode (k : Nat) (bs : List Byte) : (s.writeDigest k bs).errcode = s.errcode := rfl
@[simp] theorem State.writeDigest_pending (k : Nat) (bs : List Byte) : (s.writeDigest k bs).pending = s.pending := rfl
@[simp] theorem State.writeDigest_bufDraw (k : Nat) (bs : List Byte) : (s.writeDigest k bs).bufDraw = s.bufDraw := rfl
@[simp] theorem State.writeDigest_draws (k : Nat) (bs : List Byte) : (s.writeDigest k bs).draws = s.draws := rfl
@[simp] theorem State.writeDigest_rdata (k : Nat) (bs : List Byte) : (s.writeDigest k bs).rdata = s.rdata := rfl
@[simp] theorem State.writeDigest_inbox (k : Nat) (bs : List Byte) : (s.writeDigest k bs).inbox = s.inbox := rfl

@[simp] theorem State.writeBuf_digest (k : Nat) (bs : List Byte) : (s.writeBuf k bs).digest = s.digest := rfl
@[simp] theorem State.writeBuf_sbox (k : Nat) (bs : List Byte) : (s.writeBuf k bs).sbox = s.sbox := rfl
@[simp] theorem State.writeBuf_inv (k : Nat) (bs : List Byte) : (s.writeBuf k bs).inv = s.inv := rfl
@[simp] theorem State.writeBuf_sboxValid (k : Nat) (bs : List Byte) : (s.writeBuf k bs).sboxValid = s.sboxValid := rfl
@[simp] theorem State.writeBuf_buf (k : Nat) (bs : List Byte) : (s.writeBuf k bs).buf = Memory.writeBytes s.buf k bs := rfl
@[simp] theorem State.writeBuf_len (k : Nat) (bs : List Byte) : (s.writeBuf k bs).len = s.len := rfl
@[simp] theorem State.writeBuf_irqEn (k : Nat) (bs : List Byte) : (s.writeBuf k bs).irqEn = s.irqEn := rfl
@[simp] theorem State.writeBuf_busy (k : Nat) (bs : List Byte) : (s.writeBuf k bs).busy = s.busy := rfl
@[simp] theorem State.writeBuf_done (k : Nat) (bs : List Byte) : (s.writeBuf k bs).done = s.done := rfl
@[simp] theorem State.writeBuf_err (k : Nat) (bs : List Byte) : (s.writeBuf k bs).err = s.err := rfl
@[simp] theorem State.writeBuf_errcode (k : Nat) (bs : List Byte) : (s.writeBuf k bs).errcode = s.errcode := rfl
@[simp] theorem State.writeBuf_pending (k : Nat) (bs : List Byte) : (s.writeBuf k bs).pending = s.pending := rfl
@[simp] theorem State.writeBuf_bufDraw (k : Nat) (bs : List Byte) : (s.writeBuf k bs).bufDraw = s.bufDraw := rfl
@[simp] theorem State.writeBuf_draws (k : Nat) (bs : List Byte) : (s.writeBuf k bs).draws = s.draws := rfl
@[simp] theorem State.writeBuf_rdata (k : Nat) (bs : List Byte) : (s.writeBuf k bs).rdata = s.rdata := rfl
@[simp] theorem State.writeBuf_inbox (k : Nat) (bs : List Byte) : (s.writeBuf k bs).inbox = s.inbox := rfl

@[simp] theorem State.clearStatus_digest : s.clearStatus.digest = s.digest := rfl
@[simp] theorem State.clearStatus_sbox : s.clearStatus.sbox = s.sbox := rfl
@[simp] theorem State.clearStatus_inv : s.clearStatus.inv = s.inv := rfl
@[simp] theorem State.clearStatus_sboxValid : s.clearStatus.sboxValid = false := rfl
@[simp] theorem State.clearStatus_buf : s.clearStatus.buf = s.buf := rfl
@[simp] theorem State.clearStatus_len : s.clearStatus.len = s.len := rfl
@[simp] theorem State.clearStatus_irqEn : s.clearStatus.irqEn = s.irqEn := rfl
@[simp] theorem State.clearStatus_busy : s.clearStatus.busy = false := rfl
@[simp] theorem State.clearStatus_done : s.clearStatus.done = false := rfl
@[simp] theorem State.clearStatus_err : s.clearStatus.err = false := rfl
@[simp] theorem State.clearStatus_errcode : s.clearStatus.errcode = 0 := rfl
@[simp] theorem State.clearStatus_pending : s.clearStatus.pending = s.pending := rfl
@[simp] theorem State.clearStatus_bufDraw : s.clearStatus.bufDraw = s.bufDraw := rfl
@[simp] theorem State.clearStatus_draws : s.clearStatus.draws = s.draws := rfl
@[simp] theorem State.clearStatus_rdata : s.clearStatus.rdata = s.rdata := rfl
@[simp] theorem State.clearStatus_inbox : s.clearStatus.inbox = s.inbox := rfl

@[simp] theorem State.scrambleBuf_digest : s.scrambleBuf.digest = s.digest := rfl
@[simp] theorem State.scrambleBuf_sbox : s.scrambleBuf.sbox = s.sbox := rfl
@[simp] theorem State.scrambleBuf_inv : s.scrambleBuf.inv = s.inv := rfl
@[simp] theorem State.scrambleBuf_sboxValid : s.scrambleBuf.sboxValid = s.sboxValid := rfl
@[simp] theorem State.scrambleBuf_buf : s.scrambleBuf.buf = Memory.writeBytes s.buf 0 ((List.range s.count).map (Config.any s.draws)) := rfl
@[simp] theorem State.scrambleBuf_len : s.scrambleBuf.len = s.len := rfl
@[simp] theorem State.scrambleBuf_irqEn : s.scrambleBuf.irqEn = s.irqEn := rfl
@[simp] theorem State.scrambleBuf_busy : s.scrambleBuf.busy = s.busy := rfl
@[simp] theorem State.scrambleBuf_done : s.scrambleBuf.done = s.done := rfl
@[simp] theorem State.scrambleBuf_err : s.scrambleBuf.err = s.err := rfl
@[simp] theorem State.scrambleBuf_errcode : s.scrambleBuf.errcode = s.errcode := rfl
@[simp] theorem State.scrambleBuf_pending : s.scrambleBuf.pending = s.pending := rfl
@[simp] theorem State.scrambleBuf_bufDraw : s.scrambleBuf.bufDraw = s.bufDraw := rfl
@[simp] theorem State.scrambleBuf_draws : s.scrambleBuf.draws = s.draws + 1 := rfl
@[simp] theorem State.scrambleBuf_rdata : s.scrambleBuf.rdata = s.rdata := rfl
@[simp] theorem State.scrambleBuf_inbox : s.scrambleBuf.inbox = s.inbox := rfl

@[simp] theorem State.scrambleTables_digest : s.scrambleTables.digest = s.digest := rfl
@[simp] theorem State.scrambleTables_sbox : s.scrambleTables.sbox = anyTable s.draws := rfl
@[simp] theorem State.scrambleTables_inv : s.scrambleTables.inv = anyTable (s.draws + 1) := rfl
@[simp] theorem State.scrambleTables_sboxValid : s.scrambleTables.sboxValid = s.sboxValid := rfl
@[simp] theorem State.scrambleTables_buf : s.scrambleTables.buf = s.buf := rfl
@[simp] theorem State.scrambleTables_len : s.scrambleTables.len = s.len := rfl
@[simp] theorem State.scrambleTables_irqEn : s.scrambleTables.irqEn = s.irqEn := rfl
@[simp] theorem State.scrambleTables_busy : s.scrambleTables.busy = s.busy := rfl
@[simp] theorem State.scrambleTables_done : s.scrambleTables.done = s.done := rfl
@[simp] theorem State.scrambleTables_err : s.scrambleTables.err = s.err := rfl
@[simp] theorem State.scrambleTables_errcode : s.scrambleTables.errcode = s.errcode := rfl
@[simp] theorem State.scrambleTables_pending : s.scrambleTables.pending = s.pending := rfl
@[simp] theorem State.scrambleTables_bufDraw : s.scrambleTables.bufDraw = s.bufDraw := rfl
@[simp] theorem State.scrambleTables_draws : s.scrambleTables.draws = s.draws + 2 := rfl
@[simp] theorem State.scrambleTables_rdata : s.scrambleTables.rdata = s.rdata := rfl
@[simp] theorem State.scrambleTables_inbox : s.scrambleTables.inbox = s.inbox := rfl

@[simp] theorem State.thenTurns_digest (rest : List Event) : (s.thenTurns rest).digest = s.digest := rfl
@[simp] theorem State.thenTurns_sbox (rest : List Event) : (s.thenTurns rest).sbox = s.sbox := rfl
@[simp] theorem State.thenTurns_inv (rest : List Event) : (s.thenTurns rest).inv = s.inv := rfl
@[simp] theorem State.thenTurns_sboxValid (rest : List Event) : (s.thenTurns rest).sboxValid = s.sboxValid := rfl
@[simp] theorem State.thenTurns_buf (rest : List Event) : (s.thenTurns rest).buf = s.buf := rfl
@[simp] theorem State.thenTurns_len (rest : List Event) : (s.thenTurns rest).len = s.len := rfl
@[simp] theorem State.thenTurns_irqEn (rest : List Event) : (s.thenTurns rest).irqEn = s.irqEn := rfl
@[simp] theorem State.thenTurns_busy (rest : List Event) : (s.thenTurns rest).busy = s.busy := rfl
@[simp] theorem State.thenTurns_done (rest : List Event) : (s.thenTurns rest).done = s.done := rfl
@[simp] theorem State.thenTurns_err (rest : List Event) : (s.thenTurns rest).err = s.err := rfl
@[simp] theorem State.thenTurns_errcode (rest : List Event) : (s.thenTurns rest).errcode = s.errcode := rfl
@[simp] theorem State.thenTurns_pending (rest : List Event) : (s.thenTurns rest).pending = s.pending := rfl
@[simp] theorem State.thenTurns_bufDraw (rest : List Event) : (s.thenTurns rest).bufDraw = s.bufDraw := rfl
@[simp] theorem State.thenTurns_draws (rest : List Event) : (s.thenTurns rest).draws = s.draws := rfl
@[simp] theorem State.thenTurns_rdata (rest : List Event) : (s.thenTurns rest).rdata = s.rdata := rfl
@[simp] theorem State.thenTurns_inbox (rest : List Event) : (s.thenTurns rest).inbox = rest := rfl

@[simp] theorem State.build_digest : s.build.digest = s.digest := rfl
@[simp] theorem State.build_sbox : s.build.sbox = (buildTables (seedOf s.digest)).1 := rfl
@[simp] theorem State.build_inv : s.build.inv = (buildTables (seedOf s.digest)).2 := rfl
@[simp] theorem State.build_sboxValid : s.build.sboxValid = true := rfl
@[simp] theorem State.build_buf : s.build.buf = s.buf := rfl
@[simp] theorem State.build_len : s.build.len = s.len := rfl
@[simp] theorem State.build_irqEn : s.build.irqEn = s.irqEn := rfl
@[simp] theorem State.build_busy : s.build.busy = s.busy := rfl
@[simp] theorem State.build_done : s.build.done = s.done := rfl
@[simp] theorem State.build_err : s.build.err = s.err := rfl
@[simp] theorem State.build_errcode : s.build.errcode = s.errcode := rfl
@[simp] theorem State.build_pending : s.build.pending = s.pending := rfl
@[simp] theorem State.build_bufDraw : s.build.bufDraw = s.bufDraw := rfl
@[simp] theorem State.build_draws : s.build.draws = s.draws := rfl
@[simp] theorem State.build_rdata : s.build.rdata = s.rdata := rfl
@[simp] theorem State.build_inbox : s.build.inbox = s.inbox := rfl

@[simp] theorem State.reject_digest (c : ErrCode) : (s.reject c).digest = s.digest := by cases c <;> rfl
@[simp] theorem State.reject_sbox (c : ErrCode) : (s.reject c).sbox = s.sbox := by cases c <;> rfl
@[simp] theorem State.reject_inv (c : ErrCode) : (s.reject c).inv = s.inv := by cases c <;> rfl
@[simp] theorem State.reject_sboxValid (c : ErrCode) : (s.reject c).sboxValid = s.sboxValid := by cases c <;> rfl
@[simp] theorem State.reject_buf (c : ErrCode) : (s.reject c).buf = s.buf := by cases c <;> rfl
@[simp] theorem State.reject_len (c : ErrCode) : (s.reject c).len = s.len := by cases c <;> rfl
@[simp] theorem State.reject_irqEn (c : ErrCode) : (s.reject c).irqEn = s.irqEn := by cases c <;> rfl
@[simp] theorem State.reject_busy (c : ErrCode) : (s.reject c).busy = s.busy := by cases c <;> rfl
@[simp] theorem State.reject_done (c : ErrCode) : (s.reject c).done = if c = .cmdBusy then s.done else false := by cases c <;> rfl
@[simp] theorem State.reject_err (c : ErrCode) : (s.reject c).err = true := by cases c <;> rfl
@[simp] theorem State.reject_errcode (c : ErrCode) : (s.reject c).errcode = c.code := by cases c <;> rfl
@[simp] theorem State.reject_pending (c : ErrCode) : (s.reject c).pending = s.pending := by cases c <;> rfl
@[simp] theorem State.reject_bufDraw (c : ErrCode) : (s.reject c).bufDraw = s.bufDraw := by cases c <;> rfl
@[simp] theorem State.reject_draws (c : ErrCode) : (s.reject c).draws = s.draws := by cases c <;> rfl
@[simp] theorem State.reject_rdata (c : ErrCode) : (s.reject c).rdata = s.rdata := by cases c <;> rfl
@[simp] theorem State.reject_inbox (c : ErrCode) : (s.reject c).inbox = s.inbox := by cases c <;> rfl

end Sys2Proof.Machine
end

