-- ==== Sys2Proof/Laws/Memory.lean ====
section
/-! SUPPORT. The laws of BUF as memory: a read after a write, and that every write keeps the canonical form. -/

namespace Sys2Proof.Machine

theorem Memory.read_write (m : Memory) (a k : Nat) (v : Byte) :
    Memory.read (Memory.write m a v) k = if k = a then some v else Memory.read m k := by
  induction m with
  | nil => simp [Memory.write, Memory.read]
  | cons c rest ih =>
    obtain ⟨j, b⟩ := c
    unfold Memory.write
    split
    · simp [Memory.read]
    · split
      · subst_vars; by_cases hk : k = j <;> simp [Memory.read, hk]
      · by_cases hk : k = j
        · have : k ≠ a := by omega
          subst hk; simp [Memory.read, this]
        · simp [Memory.read, hk, ih]

theorem Memory.read_writeBytes (m : Memory) (a : Nat) (bs : List Byte) (k : Nat) :
    Memory.read (Memory.writeBytes m a bs) k =
      if h : a ≤ k ∧ k - a < bs.length then some (bs[k - a]'h.2) else Memory.read m k := by
  induction bs generalizing m a with
  | nil => simp [Memory.writeBytes]
  | cons b rest ih =>
    rw [Memory.writeBytes, ih, Memory.read_write]
    by_cases hk : k = a
    · subst hk; simp
    · by_cases h : a + 1 ≤ k ∧ k - (a + 1) < rest.length
      · have h' : a ≤ k ∧ k - a < (b :: rest).length := by simp; omega
        rw [dif_pos h, dif_pos h']
        obtain ⟨d, rfl⟩ : ∃ d, k = a + 1 + d := ⟨k - (a + 1), by omega⟩
        simp [show a + 1 + d - a = d + 1 by omega]
      · have h' : ¬ (a ≤ k ∧ k - a < (b :: rest).length) := by simp; omega
        rw [dif_neg h, dif_neg h', if_neg hk]

theorem Memory.rises_mono {m : Memory} {lo lo' hi : Nat} (h : lo' ≤ lo) (hm : Memory.rises m lo hi = true) :
    Memory.rises m lo' hi = true := by
  cases m with
  | nil => rfl
  | cons c rest =>
    simp only [Memory.rises, Bool.and_eq_true, decide_eq_true_eq] at hm ⊢
    exact ⟨⟨by omega, hm.1.2⟩, hm.2⟩

theorem Memory.rises_write {m : Memory} {lo hi a : Nat} (v : Byte) (hlo : lo ≤ a) (hhi : a < hi)
    (hm : Memory.rises m lo hi = true) : Memory.rises (Memory.write m a v) lo hi = true := by
  induction m generalizing lo with
  | nil => simp [Memory.write, Memory.rises, hlo, hhi]
  | cons c rest ih =>
    obtain ⟨j, b⟩ := c
    have hc := hm
    simp only [Memory.rises, Bool.and_eq_true, decide_eq_true_eq] at hc
    unfold Memory.write
    split
    · simp only [Memory.rises, Bool.and_eq_true, decide_eq_true_eq]
      exact ⟨⟨hlo, hhi⟩, ⟨by omega, hc.1.2⟩, hc.2⟩
    · split
      · subst_vars; simpa [Memory.rises] using hm
      · simp only [Memory.rises, Bool.and_eq_true, decide_eq_true_eq]
        exact ⟨hc.1, ih (by omega) hc.2⟩

theorem Memory.rises_writeBytes {m : Memory} {lo hi a : Nat} (bs : List Byte) (hlo : lo ≤ a)
    (hhi : a + bs.length ≤ hi) (hm : Memory.rises m lo hi = true) :
    Memory.rises (Memory.writeBytes m a bs) lo hi = true := by
  induction bs generalizing m a with
  | nil => exact hm
  | cons b rest ih =>
    simp only [List.length_cons] at hhi
    exact ih (by omega) (by omega) (Memory.rises_write b hlo (by omega) hm)

/-- A write inside BUF keeps the canonical form. -/
theorem Memory.wf_write {m : Memory} {a : Nat} (v : Byte) (ha : a < Config.bufBytes) (hm : Memory.wf m = true) :
    Memory.wf (Memory.write m a v) = true :=
  Memory.rises_write v (Nat.zero_le a) ha hm

/-- Writes inside BUF keep the canonical form. -/
theorem Memory.wf_writeBytes {m : Memory} {a : Nat} (bs : List Byte) (ha : a + bs.length ≤ Config.bufBytes)
    (hm : Memory.wf m = true) : Memory.wf (Memory.writeBytes m a bs) = true :=
  Memory.rises_writeBytes bs (Nat.zero_le a) ha hm

/-- Reset memory is in canonical form. -/
theorem reset_buf_wf : Memory.wf State.reset.buf = true := rfl

/-- Two memories in canonical form that read the same are the same data. -/
theorem Memory.ext_of_rises {m m' : Memory} {lo hi : Nat} (hm : Memory.rises m lo hi = true)
    (hm' : Memory.rises m' lo hi = true) (h : ∀ k, Memory.read m k = Memory.read m' k) : m = m' := by
  have low : ∀ {m : Memory} {lo hi k : Nat}, Memory.rises m lo hi = true → k < lo → Memory.read m k = none := by
    intro m
    induction m with
    | nil => intros; rfl
    | cons c rest ih =>
      obtain ⟨j, b⟩ := c
      intro lo hi k hm hk
      simp only [Memory.rises, Bool.and_eq_true, decide_eq_true_eq] at hm
      have : k ≠ j := by omega
      simp only [Memory.read, this, if_false]
      exact ih hm.2 (by omega)
  induction m generalizing m' lo with
  | nil =>
    cases m' with
    | nil => rfl
    | cons c rest => have := h c.1; simp [Memory.read] at this
  | cons c rest ih =>
    obtain ⟨j, b⟩ := c
    simp only [Memory.rises, Bool.and_eq_true, decide_eq_true_eq] at hm
    cases m' with
    | nil => have := h j; simp [Memory.read] at this
    | cons c' rest' =>
      obtain ⟨j', b'⟩ := c'
      simp only [Memory.rises, Bool.and_eq_true, decide_eq_true_eq] at hm'
      have hj : j = j' := by
        rcases Nat.lt_trichotomy j j' with hlt | heq | hgt
        · have := h j
          rw [low (m := (j', b') :: rest') (lo := j') (hi := hi) (by simp [Memory.rises, hm'.1.2, hm'.2]) hlt] at this
          simp [Memory.read] at this
        · exact heq
        · have := h j'
          rw [low (m := (j, b) :: rest) (lo := j) (hi := hi) (by simp [Memory.rises, hm.1.2, hm.2]) hgt] at this
          simp [Memory.read] at this
      subst hj
      have hb : b = b' := by have := h j; simpa [Memory.read] using this
      subst hb
      have hrest : rest = rest' := by
        refine ih hm.2 hm'.2 fun k => ?_
        by_cases hk : k = j
        · subst hk; rw [low hm.2 (by omega), low hm'.2 (by omega)]
        · have := h k; simpa [Memory.read, hk] using this
      rw [hrest]

end Sys2Proof.Machine
end

