-- ==== Sys2Proof/Laws/Buffer.lean ====
section
/-! SUPPORT. What `rewrite` and `writeBuf` do to the bytes of BUF, said once (R13, R130). -/

namespace Sys2Proof.Machine

theorem State.bufByte_eq {s t : State} (hb : t.buf = s.buf) (hd : t.bufDraw = s.bufDraw) (k : Nat) :
    t.bufByte k = s.bufByte k := by
  rw [State.bufByte, State.bufByte, hb, hd]

/-- The one law of a transforming command: bytes below n are the new ones, the others are as before. -/
theorem State.bufByte_rewrite (s : State) (n : Nat) (f : Nat → Byte) (k : Nat) :
    (s.rewrite n f).bufByte k = if k < n then f k else s.bufByte k := by
  simp only [State.bufByte, State.rewrite_buf, State.rewrite_bufDraw, Memory.read_writeBytes]
  by_cases h : k < n
  · simp [h]
  · simp [h]

theorem State.bufByte_writeBuf (s : State) (a : Nat) (bs : List Byte) (k : Nat) :
    (s.writeBuf a bs).bufByte k = if h : a ≤ k ∧ k - a < bs.length then bs[k - a]'h.2 else s.bufByte k := by
  simp only [State.bufByte, State.writeBuf_buf, State.writeBuf_bufDraw, Memory.read_writeBytes]
  split <;> simp

@[simp] theorem State.bufByte_complete (s : State) (k : Nat) : s.complete.bufByte k = s.bufByte k := rfl
@[simp] theorem State.bufByte_build (s : State) (k : Nat) : s.build.bufByte k = s.bufByte k := rfl
@[simp] theorem State.bufByte_accept (s : State) (op : Byte) (k : Nat) : (s.accept op).bufByte k = s.bufByte k := rfl
@[simp] theorem State.bufByte_record (s : State) (c : ErrCode) (k : Nat) : (s.record c).bufByte k = s.bufByte k := rfl
@[simp] theorem State.bufByte_reject (s : State) (c : ErrCode) (k : Nat) : (s.reject c).bufByte k = s.bufByte k := by
  cases c <;> rfl
@[simp] theorem State.count_complete (s : State) : s.complete.count = s.count := rfl
@[simp] theorem State.count_build (s : State) : s.build.count = s.count := rfl
@[simp] theorem State.count_accept (s : State) (op : Byte) : (s.accept op).count = s.count := rfl
@[simp] theorem State.count_rewrite (s : State) (n : Nat) (f : Nat → Byte) : (s.rewrite n f).count = s.count := rfl

end Sys2Proof.Machine
end

