-- ==== Sys2Proof/Laws/Decode.lean ====
section
/-! SUPPORT. The decoder's classes and the encoder, said once. -/

namespace Sys2Proof

theorem opcField_append (r : BitVec 24) (b : Byte) : opcField (r ++ b) = b := by
  unfold opcField
  apply BitVec.eq_of_getLsbD_eq
  intro k hk
  have h := BitVec.getLsbD_append (x := r) (y := b) (i := k)
  simpa [hk] using h

theorem rsvdField_append (r : BitVec 24) (b : Byte) : rsvdField (r ++ b) = r := by
  unfold rsvdField
  apply BitVec.eq_of_getLsbD_eq
  intro k hk
  have h := BitVec.getLsbD_append (x := r) (y := b) (i := 8 + k)
  simpa [hk] using h

/-- A word is its two fields (R80). -/
theorem word_of_fields (w : Word) : rsvdField w ++ opcField w = w := by
  unfold rsvdField opcField
  apply BitVec.eq_of_getLsbD_eq
  intro k hk
  simp only [BitVec.getLsbD_append, BitVec.getLsbD_extractLsb']
  by_cases h : k < 8
  · simp [h]
  · simp [h, show 8 + (k - 8) = k by omega]; omega

theorem find_row (w : Word) :
    opcodeTable.find? (fun r => w &&& r.mask == r.pattern) = opcodeTable.find? (fun r => w == r.pattern) := by
  have h : w &&& 0xFFFFFFFF#32 = w := by
    have : (0xFFFFFFFF#32) = BitVec.allOnes 32 := by decide
    rw [this, BitVec.and_allOnes]
  simp [opcodeTable, List.find?, h]

/-- What a command word decodes to is the row whose word it is. -/
theorem decode_command_eq {w : Word} {i : Instr} (h : decode w = .command i) : w = encode i := by
  unfold decode at h
  rw [find_row] at h
  split at h
  · next r hr =>
    have hp := List.find?_some hr
    have hm := List.mem_of_find?_eq_some hr
    simp only [beq_iff_eq] at hp
    cases h
    subst hp
    have : ∀ r ∈ opcodeTable, r.pattern = encode r.instr := by decide
    exact this r hm
  · split at h <;> cases h

theorem decode_of_encode (i : Instr) : decode (encode i) = .command i := by
  cases i <;> decide

theorem commandOf_opcode (i : Instr) : commandOf (opcode i) = some i := by
  cases i <;> decide

theorem commandOf_some {op : Byte} {i : Instr} (h : commandOf op = some i) : op = opcode i := by
  unfold commandOf at h
  split at h
  · next j hj =>
    cases h
    have := congrArg opcField (decode_command_eq hj)
    rwa [encode, opcField_append, opcField_append] at this
  · cases h
  · cases h

/-- A word whose RSVD is not zero matches no row (R84). -/
theorem decode_rsvd {w : Word} (h : rsvdField w ≠ 0) : decode w = .rsvd := by
  unfold decode
  rw [find_row]
  split
  · next r hr =>
    have hp := List.find?_some hr
    have hm := List.mem_of_find?_eq_some hr
    simp only [beq_iff_eq] at hp
    subst hp
    have : ∀ r ∈ opcodeTable, rsvdField r.pattern = 0 := by decide
    exact absurd (this r hm) h
  · rw [if_pos h]

theorem decode_not_rsvd {w : Word} (h : rsvdField w = 0) : decode w ≠ .rsvd := by
  unfold decode
  split
  · exact Decoded.noConfusion
  · rw [if_neg (by simpa using h)]; exact Decoded.noConfusion

/-- The words with RSVD = 0 are the opcode bytes. -/
theorem decode_zero_append (op : Byte) :
    decode (0#24 ++ op) = match commandOf op with
      | some i => .command i
      | none => .illegal := by
  unfold commandOf
  cases h : decode (0#24 ++ op) with
  | command i => rfl
  | illegal => rfl
  | rsvd =>
    refine absurd h (decode_not_rsvd ?_)
    exact rsvdField_append _ _

end Sys2Proof
end

