-- ==== Sys2Proof/Laws/Tables.lean ====
section
/-! SUPPORT. The table builder: every generator gives a permutation (R104), and the loop of R105 inverts it (R106). -/

namespace Sys2Proof.Machine

theorem lookup_permTable (p : Equiv.Perm Byte) (x : Byte) : lookup (permTable p) x = p x := by
  simp [lookup, permTable]

theorem permTable_injective (p : Equiv.Perm Byte) : Function.Injective (lookup (permTable p)) := by
  intro x y h
  simpa [lookup_permTable] using h

/-- A table whose entries are pairwise different is injective as a map on bytes. -/
theorem lookup_injective_of_nodup {P : Vector Byte 256} (h : P.toList.Nodup) : Function.Injective (lookup P) := by
  intro x y hxy
  have hx : x.toNat < P.toList.length := by simpa using x.isLt
  have hy : y.toNat < P.toList.length := by simpa using y.isLt
  have : P.toList[x.toNat] = P.toList[y.toNat] := by simpa [lookup] using hxy
  exact BitVec.eq_of_toNat_eq ((List.Nodup.getElem_inj_iff h).1 this)

theorem swapEntries_perm (P : Vector Byte 256) (i j : Nat) : (swapEntries P i j).toList.Perm P.toList :=
  (Vector.perm_iff_toList_perm.1 (Vector.swap_perm _ _))

/-- A shuffle pass only permutes the entries (R116). -/
theorem shuffleFrom_perm {fuel i : Nat} {g g' : CpyGen} {P P' : Vector Byte 256}
    (h : shuffleFrom fuel i g P = some (g', P')) : P'.toList.Perm P.toList := by
  induction i generalizing g P with
  | zero => simp only [shuffleFrom, Option.some.injEq, Prod.mk.injEq] at h; rw [h.2]
  | succ i ih =>
    simp only [shuffleFrom] at h
    split at h
    · cases h
    · exact (ih h).trans (swapEntries_perm _ _ _)

/-- So do any number of passes. -/
theorem shufflePasses_perm {fuel k : Nat} {g g' : CpyGen} {P P' : Vector Byte 256}
    (h : shufflePasses fuel k g P = some (g', P')) : P'.toList.Perm P.toList := by
  induction k generalizing g P with
  | zero => simp only [shufflePasses, Option.some.injEq, Prod.mk.injEq] at h; rw [h.2]
  | succ k ih =>
    simp only [shufflePasses] at h
    split at h
    · cases h
    · next hs => exact (ih h).trans (shuffleFrom_perm hs)

theorem identityTable_nodup : identityTable.toList.Nodup := by
  rw [List.nodup_iff_injective_getElem]
  intro a b h
  have : (BitVec.ofFin (⟨a.val, by simpa using a.isLt⟩ : Fin 256) : Byte) = BitVec.ofFin ⟨b.val, by simpa using b.isLt⟩ := by
    simpa [identityTable] using h
  exact Fin.ext (by simpa using congrArg BitVec.toNat this)

/-- What the CPY profile returns is a permutation (R104 (b), R110). -/
theorem cpyTable_injective {seed : Word} {P : Vector Byte 256} (h : cpyTable seed = some P) :
    Function.Injective (lookup P) := by
  unfold cpyTable cpyTableWithin at h
  obtain ⟨⟨g, Q⟩, hq, rfl⟩ := Option.map_eq_some_iff.1 h
  exact lookup_injective_of_nodup ((shufflePasses_perm hq).nodup_iff.2 identityTable_nodup)

/-- PERM_GEN_CPY meets R104 (b), whatever stands in for a draw that never ends. -/
theorem permGenCpy_injective (unending : Word → Equiv.Perm Byte) (seed : Word) :
    Function.Injective (lookup (permGenCpy unending seed)) := by
  unfold permGenCpy
  cases h : cpyTable seed with
  | none => exact permTable_injective _
  | some P => exact cpyTable_injective h

/-- An array of R104 is that of one permutation only. -/
theorem permTable_inj {p q : Equiv.Perm Byte} (h : permTable p = permTable q) : p = q := by
  ext x : 1
  rw [← lookup_permTable, h, lookup_permTable]

/-- Every generator meets R104 (b) at every seed. -/
theorem generator_table_injective (g : Generator) (seed : Word) :
    Function.Injective (lookup (Generator.table g seed)) := by
  cases g with
  | cpy => exact permGenCpy_injective _ _
  | other k p h => exact permTable_injective _

/-- PGEN_ID is never 0, and it is 1 exactly for the constructor of the CPY profile (R32). -/
theorem generator_id_cases (g : Generator) : (g = .cpy ∧ Generator.id g = 1) ∨
    (∃ k p h, g = .other k p h ∧ (Generator.id g).toNat = k.val + 2) := by
  cases g with
  | cpy => exact .inl ⟨rfl, rfl⟩
  | other k p h =>
    refine .inr ⟨k, p, h, rfl, ?_⟩
    have := k.isLt
    rw [Generator.id, BitVec.toNat_ofNat]
    omega

theorem permGen_injective (seed : Word) : Function.Injective (lookup (permGen seed)) :=
  generator_table_injective _ _

/-- A byte store into a table, read back. -/
theorem lookup_set (T : Vector Byte 256) (a v x : Byte) :
    lookup (T.set a.toNat v a.isLt) x = if x = a then v else lookup T x := by
  simp only [lookup, Vector.getElem_set]
  by_cases h : x = a
  · simp [h]
  · have : ¬ a.toNat = x.toNat := fun e => h (BitVec.eq_of_toNat_eq e.symm)
    simp [h, this]

/-- The loop of R105 over any indices: an index that was met is found where P sends it. -/
theorem invert_fold {P : Vector Byte 256} (hP : Function.Injective (lookup P)) (l : List Nat) (I : Vector Byte 256) (x : Byte) :
    lookup (l.foldl (fun I x => I.set (lookup P (BitVec.ofNat 8 x)).toNat (BitVec.ofNat 8 x) (BitVec.isLt _)) I) (lookup P x) =
      if x ∈ l.map (BitVec.ofNat 8) then x else lookup I (lookup P x) := by
  induction l generalizing I with
  | nil => simp
  | cons k rest ih =>
    rw [List.foldl_cons, ih, lookup_set]
    by_cases h1 : x ∈ rest.map (BitVec.ofNat 8)
    · have : x ∈ (k :: rest).map (BitVec.ofNat 8) := List.mem_cons_of_mem _ h1
      rw [if_pos h1, if_pos this]
    · by_cases h2 : x = BitVec.ofNat 8 k
      · subst h2; simp
      · have h3 : x ∉ (k :: rest).map (BitVec.ofNat 8) := by
          simp only [List.map_cons, List.mem_cons, not_or]; exact ⟨h2, h1⟩
        rw [if_neg h1, if_neg h3, if_neg (fun e => h2 (hP e))]

/-- The left inverse (R105). -/
theorem invertTable_left {P : Vector Byte 256} (hP : Function.Injective (lookup P)) (x : Byte) :
    lookup (invertTable P) (lookup P x) = x := by
  unfold invertTable
  rw [invert_fold hP, if_pos]
  refine List.mem_map.2 ⟨x.toNat, List.mem_range.2 x.isLt, ?_⟩
  simp

/-- "a permutation's left inverse is also its right inverse" (R106). -/
theorem invertTable_inverse {P : Vector Byte 256} (hP : Function.Injective (lookup P)) :
    Inverse P (invertTable P) := by
  refine ⟨invertTable_left hP, fun y => ?_⟩
  obtain ⟨x, rfl⟩ := (Finite.injective_iff_surjective.1 hP) y
  rw [invertTable_left hP]

/-- The two tables of a build are inverse to each other, whatever the seed and the generator. -/
theorem buildTables_inverse (seed : Word) : Inverse (buildTables seed).1 (buildTables seed).2 :=
  invertTable_inverse (permGen_injective seed)

end Sys2Proof.Machine
end

