-- ==== Sys2Proof/Laws/Stages.lean ====
section
/-! SUPPORT. The byte functions of the stages: the rotations undo each other (R138), the keystream (R103), and the two
byte functions of the pipeline controller. -/

namespace Sys2Proof.Machine

theorem rotr3_rotl3 (b : Byte) : rotr3 (rotl3 b) = b := by
  revert b; decide +kernel

theorem rotl3_rotr3 (b : Byte) : rotl3 (rotr3 b) = b := by
  revert b; decide +kernel

theorem digestAt_mod (D : Vector Byte 32) (k : Nat) : digestAt D (k % 32) = digestAt D k := by
  simp [digestAt]

theorem ks_eq (D : Vector Byte 32) (i : Nat) : ks D i = digestAt D (i * 7) ^^^ digestAt D (i * 3) := by
  simp [ks, digestAt_mod]

theorem xor_xor_byte (a b : Byte) : a ^^^ b ^^^ b = a := by
  rw [BitVec.xor_assoc, BitVec.xor_self, BitVec.xor_zero]

/-- The two byte functions of R160 and R161 undo each other over inverse tables. -/
theorem decodeByte_encodeByte {S I : Vector Byte 256} (h : Inverse S I) (D : Vector Byte 32) (i : Nat) (b : Byte) :
    decodeByte I D i (encodeByte S D i b) = b := by
  simp [decodeByte, encodeByte, rotr3_rotl3, h.1]

theorem encodeByte_decodeByte {S I : Vector Byte 256} (h : Inverse S I) (D : Vector Byte 32) (i : Nat) (z : Byte) :
    encodeByte S D i (decodeByte I D i z) = z := by
  simp [decodeByte, encodeByte, rotl3_rotr3, h.2]

end Sys2Proof.Machine
end

