-- ==== Sys2Proof/Laws/Commands.lean ====
section
/-! SUPPORT. Everything a CORE step can do, said once: it always answers a next state, of one of four shapes. -/

namespace Sys2Proof.Machine

/-- What a CORE step does to the state before it completes: BUF may be rewritten below LEN, and then the tables may be built. -/
def CoreEffect (i : Instr) (f : Nat → Byte) (s : State) : State :=
  if buildsTables i then (if usesLen i then s.rewrite s.count f else s).build
  else if usesLen i then s.rewrite s.count f else s

/-- Every command completes (R191), and its effect is a rewrite of BUF below LEN, a table build, both or neither (R82). -/
theorem exec_shape (i : Instr) (s : State) : ∃ f, exec i s = .next (CoreEffect i f s).complete := by
  cases i
  case nop => exact ⟨fun _ => 0, rfl⟩
  case buildSbox => exact ⟨fun _ => 0, rfl⟩
  all_goals exact ⟨_, rfl⟩

theorem exec_next {i : Instr} {s t : State} (h : exec i s = .next t) : ∃ f, t = (CoreEffect i f s).complete := by
  obtain ⟨f, hf⟩ := exec_shape i s
  rw [hf] at h
  exact ⟨f, by injection h with h; exact h.symm⟩

section
variable (i : Instr) (f : Nat → Byte) (s : State)

@[simp] theorem CoreEffect_digest : (CoreEffect i f s).digest = s.digest := by cases i <;> rfl
@[simp] theorem CoreEffect_len : (CoreEffect i f s).len = s.len := by cases i <;> rfl
@[simp] theorem CoreEffect_irqEn : (CoreEffect i f s).irqEn = s.irqEn := by cases i <;> rfl
@[simp] theorem CoreEffect_err : (CoreEffect i f s).err = s.err := by cases i <;> rfl
@[simp] theorem CoreEffect_errcode : (CoreEffect i f s).errcode = s.errcode := by cases i <;> rfl
@[simp] theorem CoreEffect_pending : (CoreEffect i f s).pending = s.pending := by cases i <;> rfl
@[simp] theorem CoreEffect_bufDraw : (CoreEffect i f s).bufDraw = s.bufDraw := by cases i <;> rfl
@[simp] theorem CoreEffect_draws : (CoreEffect i f s).draws = s.draws := by cases i <;> rfl
@[simp] theorem CoreEffect_rdata : (CoreEffect i f s).rdata = s.rdata := by cases i <;> rfl
@[simp] theorem CoreEffect_inbox : (CoreEffect i f s).inbox = s.inbox := by cases i <;> rfl

theorem CoreEffect_bufByte (k : Nat) : (CoreEffect i f s).bufByte k =
    if usesLen i = true ∧ k < s.count then f k else s.bufByte k := by
  cases i <;> simp [CoreEffect, buildsTables, usesLen, State.bufByte_rewrite]

theorem CoreEffect_sboxValid : (CoreEffect i f s).sboxValid = (buildsTables i || s.sboxValid) := by
  cases i <;> rfl

theorem CoreEffect_sbox : (CoreEffect i f s).sbox =
    if buildsTables i then (buildTables (seedOf s.digest)).1 else s.sbox := by
  cases i <;> rfl

theorem CoreEffect_inv : (CoreEffect i f s).inv =
    if buildsTables i then (buildTables (seedOf s.digest)).2 else s.inv := by
  cases i <;> rfl

theorem CoreEffect_buf : (CoreEffect i f s).buf =
    if usesLen i then Memory.writeBytes s.buf 0 ((List.range s.count).map f) else s.buf := by
  cases i <;> rfl
end

/-- The stage commands' effect, said through one law of their own. -/
theorem exec_ksXor (s : State) :
    exec .ksXor s = .next (s.rewrite s.count fun i => s.bufByte i ^^^ ks s.digest i).complete := rfl

theorem exec_sub (s : State) :
    exec .sub s = .next (s.rewrite s.count fun i => lookup s.sbox (s.bufByte i)).complete := rfl

theorem exec_invSub (s : State) :
    exec .invSub s = .next (s.rewrite s.count fun i => lookup s.inv (s.bufByte i)).complete := rfl

theorem exec_rotl3 (s : State) : exec .rotl3 s = .next (s.rewrite s.count fun i => rotl3 (s.bufByte i)).complete := rfl

theorem exec_rotr3 (s : State) : exec .rotr3 s = .next (s.rewrite s.count fun i => rotr3 (s.bufByte i)).complete := rfl

theorem exec_reverse (s : State) :
    exec .reverse s = .next (s.rewrite s.count fun i => s.bufByte (s.count - 1 - i)).complete := rfl

theorem exec_buildSbox (s : State) : exec .buildSbox s = .next s.build.complete := rfl

theorem exec_encode (s : State) :
    exec .encode s = .next (s.rewrite s.count fun i => encodeByte (buildTables (seedOf s.digest)).1 s.digest
      (s.count - 1 - i) (s.bufByte (s.count - 1 - i))).build.complete := rfl

theorem exec_decode (s : State) :
    exec .decode s = .next (s.rewrite s.count fun i => decodeByte (buildTables (seedOf s.digest)).2 s.digest i
      (s.bufByte (s.count - 1 - i))).build.complete := rfl

/-- `RUN i` from an idle state that passes the checks of R183 is the command on the accepted state. -/
theorem runCommand_accepted {i : Instr} {s : State} (hb : s.busy = false)
    (hl : usesLen i = true → s.count ≤ Config.bufBytes) (hv : needsTables i = true → s.sboxValid = true) :
    runCommand i s = exec i (s.accept (opcode i)) := by
  have h1 : ¬ (usesLen i = true ∧ Config.bufBytes < s.count) := fun h => absurd (hl h.1) (by omega)
  have h2 : ¬ (needsTables i = true ∧ s.sboxValid = false) := fun h => by simp [hv h.1] at h
  simp [runCommand, issue, hb, decode_of_encode, issueCommand, h1, h2, coreStep, State.inFlight, commandOf_opcode]

/-- The same for a state whose LEN fits the buffer (R187). -/
theorem runCommand_inRange {i : Instr} {s : State} (hb : s.busy = false) (hl : s.count ≤ Config.bufBytes)
    (hv : needsTables i = true → s.sboxValid = true) : runCommand i s = exec i (s.accept (opcode i)) :=
  runCommand_accepted hb (fun _ => hl) hv

theorem runAll_nil (s : State) : runAll [] s = .next s := rfl

theorem runAll_cons {i : Instr} {is : List Instr} {s t : State} (h : runCommand i s = .next t) :
    runAll (i :: is) s = runAll is t := by
  simp [runAll, h]

end Sys2Proof.Machine
end

