-- ==== Sys2Proof/Laws/Host.lean ====
section
/-! SUPPORT. What a host transaction can do, said once: the map of the window, reads, writes, and the issue procedure. -/

namespace Sys2Proof.Machine

theorem bufBytes_le : Config.bufBytes ≤ 65536 := by
  have := Config.bufQuads.isLt
  unfold Config.bufBytes; omega

theorem bufBytes_mod : Config.bufBytes % 4 = 0 := by
  unfold Config.bufBytes; omega

theorem bufBytes_pos : 4 ≤ Config.bufBytes := by
  unfold Config.bufBytes; omega

/-! The map of R51, one lemma per row. -/

theorem regionOf_register {off : BitVec 17} (h : off.toNat < 0x20) : regionOf off = .register (regAt (off.toNat / 4)) := by
  simp [regionOf, h]

theorem regionOf_digest {off : BitVec 17} {k : Nat} (h : off.toNat = 0x20 + k) (hk : k < 0x20) :
    regionOf off = .digest k := by
  simp only [regionOf]
  rw [if_neg (by omega), if_pos (by omega)]
  rw [show off.toNat - 0x20 = k by omega]

theorem regionOf_sbox {off : BitVec 17} {k : Nat} (h : off.toNat = 0x400 + k) (hk : k < 0x100) :
    regionOf off = .sbox k := by
  simp only [regionOf]
  rw [if_neg (by omega), if_neg (by omega), if_neg (by omega), if_pos (by omega)]
  rw [show off.toNat - 0x400 = k by omega]

theorem regionOf_inv {off : BitVec 17} {k : Nat} (h : off.toNat = 0x500 + k) (hk : k < 0x100) :
    regionOf off = .inv k := by
  simp only [regionOf]
  rw [if_neg (by omega), if_neg (by omega), if_neg (by omega), if_neg (by omega), if_pos (by omega)]
  rw [show off.toNat - 0x500 = k by omega]

theorem regionOf_buf {off : BitVec 17} {k : Nat} (h : off.toNat = 0x10000 + k) (hk : k < Config.bufBytes) :
    regionOf off = .buf k := by
  simp only [regionOf]
  rw [if_neg (by omega), if_neg (by omega), if_neg (by omega), if_neg (by omega), if_neg (by omega), if_neg (by omega),
    if_pos (by omega)]
  rw [show off.toNat - 0x10000 = k by omega]

theorem regionOf_reserved {off : BitVec 17}
    (h : (0x40 ≤ off.toNat ∧ off.toNat < 0x400) ∨ (0x600 ≤ off.toNat ∧ off.toNat < 0x10000) ∨
      0x10000 + Config.bufBytes ≤ off.toNat) : regionOf off = .reserved := by
  simp only [regionOf]
  rw [if_neg (by omega), if_neg (by omega)]
  by_cases h1 : off.toNat < 0x400
  · rw [if_pos h1]
  · rw [if_neg h1, if_neg (by omega), if_neg (by omega)]
    by_cases h2 : off.toNat < 0x10000
    · rw [if_pos h2]
    · rw [if_neg h2, if_neg (by omega)]

/-- An entry of BUF the map names lies inside BUF. -/
theorem regionOf_buf_bound {off : BitVec 17} {k : Nat} (h : regionOf off = .buf k) :
    off.toNat = 0x10000 + k ∧ k < Config.bufBytes := by
  simp only [regionOf] at h
  split at h; · cases h
  split at h; · cases h
  split at h; · cases h
  split at h; · cases h
  split at h; · cases h
  split at h; · cases h
  split at h
  · injection h with h; omega
  · cases h

/-- Only the offsets below 0x20 are registers. -/
theorem regionOf_eq_register {off : BitVec 17} {r : Reg} (h : regionOf off = .register r) : off.toNat < 0x20 := by
  simp only [regionOf] at h
  split at h
  · assumption
  · repeat' (split at h)
    all_goals cases h

/-- Every offset stands in exactly one row of R51. -/
theorem regionOf_cases (off : BitVec 17) :
   (off.toNat < 0x20 ∧ regionOf off = .register (regAt (off.toNat / 4))) ∨
   (∃ k, off.toNat = 0x20 + k ∧ k < 32 ∧ regionOf off = .digest k) ∨
   (∃ k, off.toNat = 0x400 + k ∧ k < 256 ∧ regionOf off = .sbox k) ∨
   (∃ k, off.toNat = 0x500 + k ∧ k < 256 ∧ regionOf off = .inv k) ∨
   (∃ k, off.toNat = 0x10000 + k ∧ k < Config.bufBytes ∧ regionOf off = .buf k) ∨
   (((0x40 ≤ off.toNat ∧ off.toNat < 0x400) ∨ (0x600 ≤ off.toNat ∧ off.toNat < 0x10000) ∨
      0x10000 + Config.bufBytes ≤ off.toNat) ∧ regionOf off = .reserved) := by
  by_cases h1 : off.toNat < 0x20
  · exact .inl ⟨h1, regionOf_register h1⟩
  by_cases h2 : off.toNat < 0x40
  · exact .inr (.inl ⟨off.toNat - 0x20, by omega, by omega, regionOf_digest (by omega) (by omega)⟩)
  by_cases h3 : 0x400 ≤ off.toNat ∧ off.toNat < 0x500
  · exact .inr (.inr (.inl ⟨off.toNat - 0x400, by omega, by omega, regionOf_sbox (by omega) (by omega)⟩))
  by_cases h4 : 0x500 ≤ off.toNat ∧ off.toNat < 0x600
  · exact .inr (.inr (.inr (.inl ⟨off.toNat - 0x500, by omega, by omega, regionOf_inv (by omega) (by omega)⟩)))
  by_cases h5 : 0x10000 ≤ off.toNat ∧ off.toNat < 0x10000 + Config.bufBytes
  · exact .inr (.inr (.inr (.inr (.inl ⟨off.toNat - 0x10000, by omega, by omega, regionOf_buf (by omega) (by omega)⟩))))
  have h : (0x40 ≤ off.toNat ∧ off.toNat < 0x400) ∨ (0x600 ≤ off.toNat ∧ off.toNat < 0x10000) ∨
      0x10000 + Config.bufBytes ≤ off.toNat := by omega
  exact .inr (.inr (.inr (.inr (.inr ⟨h, regionOf_reserved h⟩))))

theorem Transaction.legal_iff (x : Transaction) :
    x.legal = true ↔ x.off.toNat % x.width.bytes = 0 ∧ (x.off.toNat < 0x20 → x.width = .four) := by
  unfold Transaction.legal Transaction.aligned Transaction.widthAllowed
  rw [Bool.and_eq_true, beq_iff_eq]
  refine and_congr_right fun _ => ?_
  constructor
  · intro h hlt
    rw [regionOf_register hlt] at h
    simpa using h
  · intro h
    split
    · next r hr => simpa using h (regionOf_eq_register hr)
    all_goals rfl

/-- What a read can do (R59): it returns data, and a draw takes the next draw number. -/
theorem hostRead_shape (s : State) (n : Width) (off : BitVec 17) :
    (∃ d, s.hostRead n off = s.answer d) ∨ s.hostRead n off = s.answerAny n := by
  unfold State.hostRead
  split
  · exact .inl ⟨_, rfl⟩
  · exact .inl ⟨_, rfl⟩
  · exact .inl ⟨_, rfl⟩
  all_goals
    split
    · exact .inr rfl
    · exact .inl ⟨_, rfl⟩

/-- What the issue procedure can do (R183): reject with a code, or accept a command that passed the checks. -/
theorem issue_cases (w : Word) (s : State) :
    (∃ c, issue w s = s.reject c ∧ (s.busy = true → c = .cmdBusy)) ∨
    (∃ i, issue w s = s.accept (opcode i) ∧ s.busy = false ∧ (usesLen i = true → s.count ≤ Config.bufBytes) ∧
      (needsTables i = true → s.sboxValid = true)) := by
  unfold issue
  split
  · exact .inl ⟨_, rfl, fun _ => rfl⟩
  · next hb =>
    split
    · exact .inl ⟨_, rfl, fun h => absurd h hb⟩
    · exact .inl ⟨_, rfl, fun h => absurd h hb⟩
    · next i _ =>
      unfold issueCommand
      split
      · exact .inl ⟨_, rfl, fun h => absurd h hb⟩
      · split
        · exact .inl ⟨_, rfl, fun h => absurd h hb⟩
        · next h1 h2 =>
          refine .inr ⟨i, rfl, by simpa using hb, fun hu => ?_, fun hn => ?_⟩
          · by_contra hc
            exact h1 ⟨hu, by omega⟩
          · by_contra hc
            exact h2 ⟨hn, by simpa using hc⟩

/-- The issue procedure never ends a command in flight and never touches SBOX_VALID (R183). -/
theorem issue_keeps (w : Word) (s : State) :
    (s.busy = true → (issue w s).busy = true) ∧ (issue w s).sboxValid = s.sboxValid := by
  obtain ⟨c, hc, -⟩ | ⟨i, hi, -, -, -⟩ := issue_cases w s
  · rw [hc]; exact ⟨fun h => by cases c <;> exact h, by cases c <;> rfl⟩
  · rw [hi]; exact ⟨fun _ => rfl, rfl⟩

/-- The turns to come play no part in the issue procedure. -/
theorem issue_thenTurns (w : Word) (s : State) (l : List Event) : issue w (s.thenTurns l) = (issue w s).thenTurns l := by
  unfold issue
  by_cases hb : s.busy = true
  · rw [if_pos hb, if_pos (show (s.thenTurns l).busy = true from hb)]; rfl
  · rw [if_neg hb, if_neg (show ¬ (s.thenTurns l).busy = true from hb)]
    cases decode w with
    | rsvd => rfl
    | illegal => rfl
    | command i =>
      dsimp only [issueCommand]
      by_cases h1 : usesLen i = true ∧ Config.bufBytes < s.count
      · rw [if_pos h1, if_pos (show usesLen i = true ∧ Config.bufBytes < (s.thenTurns l).count from h1)]; rfl
      · rw [if_neg h1, if_neg (show ¬ (usesLen i = true ∧ Config.bufBytes < (s.thenTurns l).count) from h1)]
        by_cases h2 : needsTables i = true ∧ s.sboxValid = false
        · rw [if_pos h2, if_pos (show needsTables i = true ∧ (s.thenTurns l).sboxValid = false from h2)]; rfl
        · rw [if_neg h2, if_neg (show ¬ (needsTables i = true ∧ (s.thenTurns l).sboxValid = false) from h2)]; rfl

theorem BusData.length_bytes (d : BusData) : d.bytes.length = d.width.bytes := by
  cases d <;> rfl

/-- What a write can do (R60): an error record, a CTRL, STATUS, CMD or LEN write, a store, or nothing. -/
theorem hostWrite_cases (s : State) (off : BitVec 17) (d : BusData) :
    s.hostWrite off d = s ∨ (s.busy = true ∧ s.hostWrite off d = s.record .busyAccess) ∨
    s.hostWrite off d = s.writeCtrl d.value ∨ s.hostWrite off d = s.writeStatus d.value ∨
    s.hostWrite off d = issue d.value s ∨
    (s.busy = false ∧ s.hostWrite off d = { s with len := d.value }) ∨
    (s.busy = false ∧ ∃ k, s.hostWrite off d = s.writeDigest k d.bytes) ∨
    (s.busy = false ∧ ∃ k, regionOf off = .buf k ∧ s.hostWrite off d = s.writeBuf k d.bytes) := by
  unfold State.hostWrite
  by_cases hf : s.busy = true ∧ Region.frozen (regionOf off) = true
  · rw [if_pos hf]; exact .inr (.inl ⟨hf.1, rfl⟩)
  · rw [if_neg hf]
    have hb : ∀ {r}, regionOf off = r → Region.frozen r = true → s.busy = false := by
      intro r hr h
      by_contra hc
      exact hf ⟨by simpa using hc, by rw [hr]; exact h⟩
    cases hr : regionOf off with
    | register r =>
      cases r
      case ctrl => exact .inr (.inr (.inl rfl))
      case status => exact .inr (.inr (.inr (.inl rfl)))
      case cmd => exact .inr (.inr (.inr (.inr (.inl rfl))))
      case len => exact .inr (.inr (.inr (.inr (.inr (.inl ⟨hb hr rfl, rfl⟩)))))
      all_goals exact .inl rfl
    | digest k => exact .inr (.inr (.inr (.inr (.inr (.inr (.inl ⟨hb hr rfl, k, rfl⟩))))))
    | buf k => exact .inr (.inr (.inr (.inr (.inr (.inr (.inr ⟨hb hr rfl, k, rfl, rfl⟩))))))
    | sbox k => exact .inl rfl
    | inv k => exact .inl rfl
    | reserved => exact .inl rfl

/-- Where DIGEST bytes land (R43). -/
theorem digestAt_putDigest (D : Vector Byte 32) (k : Nat) (bs : List Byte) (hk : k + bs.length ≤ 32) (j : Nat) (hj : j < 32) :
    digestAt (putDigest D k bs) j = if h : k ≤ j ∧ j - k < bs.length then bs[j - k]'h.2 else digestAt D j := by
  induction bs generalizing D k with
  | nil => simp [putDigest]
  | cons b rest ih =>
    simp only [List.length_cons] at hk
    rw [putDigest, ih _ (k + 1) (by omega)]
    have hset : digestAt (D.set (k % 32) b (Nat.mod_lt _ (by decide))) j = if j = k then b else digestAt D j := by
      simp only [digestAt, Vector.getElem_set, Nat.mod_eq_of_lt hj, Nat.mod_eq_of_lt (show k < 32 by omega)]
      simp [eq_comm]
    rw [hset]
    by_cases hjk : j = k
    · subst hjk; simp
    · by_cases h : k + 1 ≤ j ∧ j - (k + 1) < rest.length
      · have h' : k ≤ j ∧ j - k < (b :: rest).length := by simp; omega
        rw [dif_pos h, dif_pos h']
        obtain ⟨e, rfl⟩ : ∃ e, j = k + 1 + e := ⟨j - (k + 1), by omega⟩
        simp [show k + 1 + e - k = e + 1 by omega]
      · have h' : ¬ (k ≤ j ∧ j - k < (b :: rest).length) := by simp; omega
        rw [dif_neg h, dif_neg h', if_neg hjk]

/-- A write the busy window drops (R189). -/
theorem hostWrite_frozen {s : State} {off : BitVec 17} {d : BusData} (hb : s.busy = true)
    (hf : Region.frozen (regionOf off) = true) : s.hostWrite off d = s.record .busyAccess := by
  rw [State.hostWrite, if_pos ⟨hb, hf⟩]

/-- A write the busy window lets through, where the busy check of R56 does not apply. -/
theorem hostWrite_open {s : State} {off : BitVec 17} {d : BusData}
    (h : s.busy = false ∨ Region.frozen (regionOf off) = false) : s.hostWrite off d =
      match regionOf off with
      | .register r => s.writeReg r d.value
      | .reserved => s
      | .sbox _ => s
      | .inv _ => s
      | .digest k => s.writeDigest k d.bytes
      | .buf k => s.writeBuf k d.bytes := by
  have hn : ¬ (s.busy = true ∧ Region.frozen (regionOf off) = true) := by
    rintro ⟨h1, h2⟩
    rcases h with h | h
    · simp [h] at h1
    · simp [h] at h2
  unfold State.hostWrite
  exact (if_neg hn).trans (by cases regionOf off <;> rfl)

/-! Bytes put together and taken apart (R57). -/

theorem toNat_append_byte {w : Nat} (x : BitVec w) (b : Byte) : (x ++ b).toNat = x.toNat * 2 ^ 8 + b.toNat := by
  rw [BitVec.toNat_append, Nat.shiftLeft_eq, Nat.mul_comm, Nat.two_pow_add_eq_or_of_lt b.isLt]

theorem extract_byte {w : Nat} {v : BitVec w} {b : Byte} {k : Nat} (h : v.toNat / 2 ^ k % 256 = b.toNat) :
    v.extractLsb' k 8 = b := by
  apply BitVec.eq_of_toNat_eq
  rw [BitVec.extractLsb'_toNat, Nat.shiftRight_eq_div_pow]
  exact h

@[simp] theorem packLE_width (n : Width) (b : Nat → Byte) : (packLE n b).width = n := by cases n <;> rfl

/-- An aligned transaction that begins inside BUF ends inside BUF (R54). -/
theorem store_inside {k : Nat} {off : BitVec 17} {d : BusData} (hr : regionOf off = .buf k)
    (ha : off.toNat % d.width.bytes = 0) : k + d.bytes.length ≤ Config.bufBytes := by
  obtain ⟨h1, h2⟩ := regionOf_buf_bound hr
  rw [d.length_bytes]
  have := bufBytes_mod
  cases hd : d.width <;> rw [hd] at ha <;> simp only [Width.bytes] at ha ⊢ <;> omega

end Sys2Proof.Machine
end

