-- ==== Sys2Proof/Laws/Reset.lean ====
section
/-! SUPPORT. What a soft reset and a hard reset leave, said once (R210, R213). -/

namespace Sys2Proof.Machine

@[simp] theorem State.bufByte_clearStatus (s : State) (k : Nat) : s.clearStatus.bufByte k = s.bufByte k := rfl
@[simp] theorem State.bufByte_scrambleTables (s : State) (k : Nat) : s.scrambleTables.bufByte k = s.bufByte k := rfl

/-- The bytes an abort draws, and those it leaves (R213). -/
theorem State.bufByte_scrambleBuf (s : State) (k : Nat) :
    s.scrambleBuf.bufByte k = if k < s.count then Config.any s.draws k else s.bufByte k := by
  have : s.scrambleBuf.bufByte k = (s.rewrite s.count (Config.any s.draws)).bufByte k := rfl
  rw [this, State.bufByte_rewrite]

/-- The opcodes R213 lists for the buffer are the commands that use LEN. -/
theorem flight_usesLen (op : Byte) :
    (commandOf op).any usesLen = decide (op ∈ [0x02, 0x03, 0x04, 0x05, 0x06, 0x07, 0x10, 0x11]) := by
  revert op; decide +kernel

/-- The opcodes R213 lists for the tables are the commands that build them. -/
theorem flight_buildsTables (op : Byte) : (commandOf op).any buildsTables = decide (op ∈ [0x01, 0x10, 0x11]) := by
  revert op; decide +kernel

/-- The fields a soft reset keeps whatever was in flight (R213). -/
theorem softReset_keeps (s : State) :
    s.softReset.digest = s.digest ∧ s.softReset.len = s.len ∧ s.softReset.irqEn = s.irqEn ∧
    s.softReset.pending = s.pending ∧ s.softReset.rdata = s.rdata ∧ s.softReset.inbox = s.inbox := by
  unfold State.softReset State.abort
  split
  · dsimp only; split <;> split <;> simp
  · simp

/-- The control words of a state whose DIGEST, CTRL and STATUS fields are at their reset values (R29, R30, R100). -/
theorem words_at_reset {t : State} (hd : t.digest = Vector.replicate 32 0) (hi : t.irqEn = false) (hb : t.busy = false)
    (ho : t.done = false) (he : t.err = false) (hc : t.errcode = 0) (hv : t.sboxValid = false) :
    (∀ k, digestAt t.digest k = 0) ∧ seedOf t.digest = 0 ∧ t.ctrlWord = 0 ∧ t.statusWord = 0 := by
  refine ⟨fun k => by rw [hd]; simp [digestAt], ?_, ?_, ?_⟩
  · rw [hd]; decide
  · rw [State.ctrlWord, hi]; decide
  · rw [State.statusWord, hb, ho, he, hc, hv]; decide

end Sys2Proof.Machine
end

