-- ==== Sys2Proof/Laws/Step.lean ====
section
/-! SUPPORT. What a step can do, said once. -/

namespace Sys2Proof.Machine

theorem step_nil {s : State} (h : s.inbox = []) : step s = coreStep s := by simp [step, advance, h]

theorem step_cons {s : State} {e : Event} {rest : List Event} (h : s.inbox = e :: rest) :
    step s = takeTurn e (s.thenTurns rest) := by simp [step, advance, h]

/-- CORE's step: nothing while idle, a command while busy, a refusal for a PENDING that is no opcode. -/
theorem coreStep_cases (s : State) :
    (s.busy = false ∧ coreStep s = .next s) ∨
    (s.busy = true ∧ ∃ i, s.inFlight = some i ∧ coreStep s = exec i s) ∨
    (s.busy = true ∧ s.inFlight = none ∧ coreStep s = .refused (.pendingNotACommand s.pending)) := by
  unfold coreStep
  cases hb : s.busy with
  | false => exact .inl ⟨rfl, rfl⟩
  | true =>
    cases hi : s.inFlight with
    | some i => exact .inr (.inl ⟨rfl, i, rfl, rfl⟩)
    | none => exact .inr (.inr ⟨rfl, rfl, rfl⟩)

/-- CORE's step when PENDING holds a command's opcode. -/
theorem coreStep_flight {s : State} {i : Instr} (hb : s.busy = true) (hp : s.pending = opcode i) :
    coreStep s = exec i s := by
  rcases coreStep_cases s with ⟨h, -⟩ | ⟨-, j, hj, h⟩ | ⟨-, hn, -⟩
  · simp [hb] at h
  · rw [State.inFlight, hp, commandOf_opcode] at hj
    injection hj with hj
    rw [h, hj]
  · simp [State.inFlight, hp, commandOf_opcode] at hn

/-- CORE's turn raises SBOX_VALID only with a table-building command in flight, and never clears it (R26). -/
theorem coreStep_sboxValid {s t : State} (h : coreStep s = .next t) :
    (s.sboxValid = false → t.sboxValid = true →
      s.busy = true ∧ ∃ i, s.inFlight = some i ∧ buildsTables i = true) ∧
    (s.sboxValid = true → t.sboxValid = true) := by
  obtain ⟨-, e⟩ | ⟨hb, i, hi, e⟩ | ⟨hb, hi, e⟩ := coreStep_cases s
  · rw [e] at h; injection h with h; subst h; exact ⟨fun a b => by simp [a] at b, id⟩
  · obtain ⟨f, rfl⟩ := exec_next (e ▸ h)
    simp only [State.complete_sboxValid, CoreEffect_sboxValid]
    exact ⟨fun a b => ⟨hb, i, hi, by simpa [a] using b⟩, fun a => by simp [a]⟩
  · rw [e] at h; cases h

theorem turn_nil {s : State} (h : s.inbox = []) : s.turn = .core := by simp [State.turn, h]

theorem turn_cons {s : State} {e : Event} {rest : List Event} (h : s.inbox = e :: rest) : s.turn = e := by
  simp [State.turn, h]

theorem coreStep_idle {s : State} (hb : s.busy = false) : coreStep s = .next s := by simp [coreStep, hb]

/-- A host turn that answers a next state is a legal read or a legal write. -/
theorem hostStep_next {x : Transaction} {s t : State} (h : hostStep x s = .next t) :
    x.legal = true ∧ ((∃ n off, x = .read n off ∧ t = s.hostRead n off) ∨ (∃ off d, x = .write off d ∧ t = s.hostWrite off d)) := by
  unfold hostStep at h
  split at h
  · next hl =>
    refine ⟨hl, ?_⟩
    cases x with
    | read n off => injection h with h; exact .inl ⟨n, off, rfl, h.symm⟩
    | write off d => injection h with h; exact .inr ⟨off, d, rfl, h.symm⟩
  · cases h

theorem hostStep_legal {x : Transaction} {s : State} (h : x.legal = true) : ∃ t, hostStep x s = .next t := by
  unfold hostStep
  rw [if_pos h]
  cases x
  · exact ⟨_, rfl⟩
  · exact ⟨_, rfl⟩

theorem hostStep_read {n : Width} {off : BitVec 17} {s : State} (ha : off.toNat % n.bytes = 0)
    (hr : off.toNat < 0x20 → n = .four) : hostStep (.read n off) s = .next (s.hostRead n off) := by
  have : (Transaction.read n off).legal = true := (Transaction.legal_iff _).2 ⟨ha, hr⟩
  simp [hostStep, this]

theorem hostStep_write {off : BitVec 17} {d : BusData} {s : State} (ha : off.toNat % d.width.bytes = 0)
    (hr : off.toNat < 0x20 → d.width = .four) : hostStep (.write off d) s = .next (s.hostWrite off d) := by
  have : (Transaction.write off d).legal = true := (Transaction.legal_iff _).2 ⟨ha, hr⟩
  simp [hostStep, this]

/-- A 4-byte write to a register other than LEN, as a step. -/
theorem step_writeReg {s : State} {off : BitVec 17} {v : Word} {r : Reg} {rest : List Event}
    (h : s.inbox = .host (.write off (.word v)) :: rest) (ho : off.toNat < 0x20) (ha : off.toNat % 4 = 0)
    (hr : regAt (off.toNat / 4) = r) (hl : r ≠ .len) : step s = .next ((s.thenTurns rest).writeReg r v) := by
  rw [step_cons h, takeTurn, hostStep_write ha (by intro; rfl)]
  have hf : Region.frozen (.register r) = false := by cases r <;> first | rfl | exact absurd rfl hl
  simp [State.hostWrite, regionOf_register ho, hr, hf, BusData.value]

/-- A read that R53 and R54 allow, as a step. -/
theorem step_read {s : State} {n : Width} {off : BitVec 17} {rest : List Event} (h : s.inbox = .host (.read n off) :: rest)
    (ha : off.toNat % n.bytes = 0) (hr : off.toNat < 0x20 → n = .four) :
    step s = .next ((s.thenTurns rest).hostRead n off) := by
  rw [step_cons h, takeTurn, hostStep_read ha hr]

/-- A write that R53 and R54 allow, as a step. -/
theorem step_write {s : State} {off : BitVec 17} {d : BusData} {rest : List Event}
    (h : s.inbox = .host (.write off d) :: rest) (ha : off.toNat % d.width.bytes = 0)
    (hr : off.toNat < 0x20 → d.width = .four) : step s = .next ((s.thenTurns rest).hostWrite off d) := by
  rw [step_cons h, takeTurn, hostStep_write ha hr]

/-- A 4-byte read of a register, as a step. -/
theorem step_readReg {s : State} {off : BitVec 17} {r : Reg} {rest : List Event}
    (h : s.inbox = .host (.read .four off) :: rest) (ho : off.toNat < 0x20) (ha : off.toNat % 4 = 0)
    (hr : regAt (off.toNat / 4) = r) :
    step s = .next ((s.thenTurns rest).answer (.word ((s.thenTurns rest).readReg r))) := by
  rw [step_read h ha (fun _ => rfl), State.hostRead, regionOf_register ho, hr]

end Sys2Proof.Machine
end

