-- ==== Sys2Proof/Laws/Invariant.lean ====
section
/-! SUPPORT. The invariant of Safety.lean, one lemma per operation that keeps it. -/

namespace Sys2Proof.Machine

/-- The invariant speaks only of these fields. -/
theorem inv_of_same {s t : State} (h : s.Inv) (h1 : t.busy = s.busy) (h2 : t.done = s.done) (h3 : t.err = s.err)
    (h4 : t.errcode = s.errcode) (h5 : t.sboxValid = s.sboxValid) (h6 : t.sbox = s.sbox) (h7 : t.inv = s.inv)
    (h8 : t.digest = s.digest) (h9 : t.pending = s.pending) (h10 : t.len = s.len) (h11 : t.buf = s.buf) : t.Inv := by
  constructor
  · rw [h1, h2]; exact h.busyNotDone
  · rw [h3, h4]; exact h.noErrNoCode
  · rw [h3, h4]; exact h.errHasCode
  · rw [h4]; exact h.codeInRange
  · rw [h5, h6, h7, h8]; exact h.tablesCurrent
  · rw [h1, h5]; simp only [State.inFlight, State.count, h9, h10]; exact h.flightAccepted
  · rw [h11]; exact h.bufForm

theorem inv_thenTurns {s : State} (l : List Event) (h : s.Inv) : (s.thenTurns l).Inv :=
  inv_of_same h rfl rfl rfl rfl rfl rfl rfl rfl rfl rfl rfl

/-- With nothing in flight, no error and no valid tables, only the form of BUF is left to check. -/
theorem inv_of_idle {s : State} (hb : s.busy = false) (he : s.err = false) (hc : s.errcode = 0)
    (hv : s.sboxValid = false) (hm : Memory.wf s.buf = true) : s.Inv where
  busyNotDone h := by simp [hb] at h
  noErrNoCode _ := hc
  errHasCode h := by simp [he] at h
  codeInRange := by simp [hc]
  tablesCurrent h := by simp [hv] at h
  flightAccepted h := by simp [hb] at h
  bufForm := hm

theorem ErrCode.code_range (c : ErrCode) : c.code ≠ 0 ∧ c.code.toNat ≤ 6 := by cases c <;> decide

theorem inv_record {s : State} (c : ErrCode) (h : s.Inv) : (s.record c).Inv :=
  { h with
    noErrNoCode := fun e => by cases e
    errHasCode := fun _ => c.code_range.1
    codeInRange := c.code_range.2 }

theorem inv_reject {s : State} (c : ErrCode) (h : s.Inv) : (s.reject c).Inv := by
  unfold State.reject
  apply inv_record
  split
  · exact h
  · exact { h with busyNotDone := fun _ => rfl }

theorem inv_issue {s : State} (w : Word) (h : s.Inv) : (issue w s).Inv := by
  obtain ⟨c, hc, -⟩ | ⟨i, hi, -, hl, hn⟩ := issue_cases w s
  · rw [hc]; exact inv_reject c h
  · rw [hi]
    exact { h with
      busyNotDone := fun _ => rfl
      flightAccepted := fun _ => ⟨i, commandOf_opcode i, hl, hn⟩ }

theorem inv_writeStatus {s : State} (v : Word) (h : s.Inv) : (s.writeStatus v).Inv := by
  refine { h with busyNotDone := fun hb => ?_, noErrNoCode := ?_, errHasCode := ?_, codeInRange := ?_ }
  · have := h.busyNotDone hb
    show (if _ then _ else _) = _
    simp [this]
  all_goals
    have e1 := h.noErrNoCode
    have e2 := h.errHasCode
    have e3 := h.codeInRange
    simp only [State.writeStatus]
    split <;> simp_all

theorem abort_wf {s : State} (h : s.Inv) (hb : s.busy = true) : Memory.wf s.abort.buf = true := by
  obtain ⟨i, hi, hl, -⟩ := h.flightAccepted hb
  unfold State.abort
  simp only [hi, Option.any]
  have : Memory.wf (if usesLen i = true then s.scrambleBuf else s).buf = true := by
    split
    · next hu => exact Memory.wf_writeBytes _ (by simpa using hl hu) h.bufForm
    · exact h.bufForm
  split
  · exact this
  · exact this

theorem inv_softReset {s : State} (h : s.Inv) : s.softReset.Inv := by
  apply inv_of_idle <;> try rfl
  show Memory.wf (if s.busy = true then s.abort else s).buf = true
  split
  · next hb => exact abort_wf h hb
  · exact h.bufForm

theorem inv_writeCtrl {s : State} (v : Word) (h : s.Inv) : (s.writeCtrl v).Inv := by
  have h' : ({ s with irqEn := v.getLsbD 0 } : State).Inv := inv_of_same h rfl rfl rfl rfl rfl rfl rfl rfl rfl rfl rfl
  unfold State.writeCtrl
  dsimp only
  split
  · exact inv_softReset h'
  · exact h'

theorem inv_hostRead {s : State} (n : Width) (off : BitVec 17) (h : s.Inv) : (s.hostRead n off).Inv := by
  obtain ⟨d, hd⟩ | hd := hostRead_shape s n off <;> rw [hd] <;>
    exact inv_of_same h rfl rfl rfl rfl rfl rfl rfl rfl rfl rfl rfl

theorem inv_hostWrite {s : State} {off : BitVec 17} {d : BusData} (hx : off.toNat % d.width.bytes = 0) (h : s.Inv) :
    (s.hostWrite off d).Inv := by
  obtain e | ⟨-, e⟩ | e | e | e | ⟨hb, e⟩ | ⟨hb, k, e⟩ | ⟨hb, k, hk, e⟩ := hostWrite_cases s off d <;> rw [e]
  · exact h
  · exact inv_record _ h
  · exact inv_writeCtrl _ h
  · exact inv_writeStatus _ h
  · exact inv_issue _ h
  · exact { h with flightAccepted := fun h' => by simp [hb] at h' }
  · exact { h with tablesCurrent := fun h' => by simp at h', flightAccepted := fun h' => by simp [hb] at h' }
  · exact { h with bufForm := Memory.wf_writeBytes _ (store_inside hk hx) h.bufForm }

theorem inv_exec {s t : State} {i : Instr} (h : s.Inv) (hi : usesLen i = true → s.count ≤ Config.bufBytes)
    (he : exec i s = .next t) : t.Inv := by
  obtain ⟨f, rfl⟩ := exec_next he
  constructor
  · intro hb; cases hb
  · intro hb; have := h.noErrNoCode; simp_all
  · intro hb; have := h.errHasCode; simp_all
  · have := h.codeInRange; simp_all
  · intro hv
    have := h.tablesCurrent
    simp only [State.complete_sboxValid, CoreEffect_sboxValid, State.complete_sbox, CoreEffect_sbox, State.complete_inv,
      CoreEffect_inv, State.complete_digest, CoreEffect_digest] at hv ⊢
    by_cases hbt : buildsTables i = true
    · simp [hbt]
    · simp [hbt] at hv ⊢; exact this hv
  · intro hb; cases hb
  · show Memory.wf (CoreEffect i f s).buf = true
    rw [CoreEffect_buf]
    split
    · next hu => exact Memory.wf_writeBytes _ (by simpa using hi hu) h.bufForm
    · exact h.bufForm

/-- CORE's turn in a state with the invariant: it is never refused, and the invariant holds after it. -/
theorem inv_coreStep {s : State} (h : s.Inv) : ∃ t, coreStep s = .next t ∧ t.Inv := by
  obtain ⟨-, e⟩ | ⟨hb, i, hi, e⟩ | ⟨hb, hi, -⟩ := coreStep_cases s
  · exact ⟨s, e, h⟩
  · obtain ⟨j, hj, hl, -⟩ := h.flightAccepted hb
    rw [hi] at hj; injection hj with hj; subst hj
    obtain ⟨f, hf⟩ := exec_shape i s
    exact ⟨_, e.trans hf, inv_exec h hl hf⟩
  · obtain ⟨j, hj, -⟩ := h.flightAccepted hb
    rw [hi] at hj; cases hj

end Sys2Proof.Machine
end

