-- ==== Sys2Proof/Laws/PerInstr.lean ====
section
/-! SUPPORT. Per-instruction statements: the family Encoding, one lemma per constructor of Instr. -/

namespace Sys2Proof.Laws

/-- What every command's word and opcode must satisfy (R80, R82, R85, R88): the word is well formed, its RSVD is zero and its OPC
is the opcode, it decodes to the command, and so does the opcode as PENDING holds it. -/
def Encoding.Statement (i : Instr) : Prop :=
  i.wellFormed = true ∧ wellFormedWord (encode i) = true ∧ rsvdField (encode i) = 0 ∧ opcField (encode i) = opcode i ∧
  decode (encode i) = .command i ∧ commandOf (opcode i) = some i ∧ decodeTableWord 32 (encode i).toNat = some i

theorem Encoding.nop : Encoding.Statement .nop := by unfold Encoding.Statement; decide
theorem Encoding.buildSbox : Encoding.Statement .buildSbox := by unfold Encoding.Statement; decide
theorem Encoding.ksXor : Encoding.Statement .ksXor := by unfold Encoding.Statement; decide
theorem Encoding.sub : Encoding.Statement .sub := by unfold Encoding.Statement; decide
theorem Encoding.invSub : Encoding.Statement .invSub := by unfold Encoding.Statement; decide
theorem Encoding.rotl3 : Encoding.Statement .rotl3 := by unfold Encoding.Statement; decide
theorem Encoding.rotr3 : Encoding.Statement .rotr3 := by unfold Encoding.Statement; decide
theorem Encoding.reverse : Encoding.Statement .reverse := by unfold Encoding.Statement; decide
theorem Encoding.encode : Encoding.Statement .encode := by unfold Encoding.Statement; decide
theorem Encoding.decode : Encoding.Statement .decode := by unfold Encoding.Statement; decide

end Sys2Proof.Laws
end

