-- ==== Sys2Proof/Tests/Slice0.lean ====
section
/-! SUPPORT. Tests on small states, each one step or one function, with the expected value from 95_test_vectors.md (the section is
named) or from a rule; then, for every statement with hypotheses, a witness that meets them. -/

namespace Sys2Proof.Tests

open Sys2Proof Sys2Proof.Machine

/-! ## Small states -/

/-- `Dc` of 95_test_vectors.md: DIGEST[k] = k. -/
def dc : Vector Byte 32 := Vector.ofFn fun k => BitVec.ofNat 8 k.val

/-- The bytes at the first indices of BUF. -/
def bufOf (bs : List Byte) : Memory := bs.mapIdx fun k b => (k, b)

/-- An idle block with digest Dc, the bytes in BUF and LEN their number. -/
def idleWith (bs : List Byte) : State := { State.reset with digest := dc, buf := bufOf bs, len := BitVec.ofNat 32 bs.length }

/-- The first `n` bytes of BUF after an outcome. -/
def bufAfter (n : Nat) : Host.Outcome State Fault Refusal → List Byte
  | .next t => (List.range n).map t.bufByte
  | .fault _ => []
  | .refused _ => []

/-- The control registers after an outcome: STATUS, LEN, SEED, CTRL. -/
def ctlAfter : Host.Outcome State Fault Refusal → List Word
  | .next t => [t.statusWord, t.len, seedOf t.digest, t.ctrlWord]
  | .fault _ => []
  | .refused _ => []

/-- The value a host read returned. -/
def readAfter : Host.Outcome State Fault Refusal → Option BusData
  | .next t => t.rdata
  | .fault _ => none
  | .refused _ => none

/-- The fault of an outcome. -/
def faultAfter : Host.Outcome State Fault Refusal → Option Fault
  | .next _ => none
  | .fault r => some r
  | .refused _ => none

/-- `s` with the transaction as the only turn to come. -/
def turn (x : Transaction) (s : State) : State := { s with inbox := [.host x] }

/-- `s` with STATUS bits as given, nothing in flight unless `busy`; the pending command is ENCODE. -/
def withStatus (busy done err valid : Bool) (code : BitVec 4) (s : State) : State :=
  { s with busy := busy, done := done, err := err, sboxValid := valid, errcode := code, pending := 0x10 }

/-! ## Decoding (R80, R82 to R85) -/

theorem test_decode_nop : decode 0b00000000000000000000000000000000#32 = .command .nop := by decide
theorem test_decode_buildSbox : decode 0b00000000000000000000000000000001#32 = .command .buildSbox := by decide
theorem test_decode_ksXor : decode 0b00000000000000000000000000000010#32 = .command .ksXor := by decide
theorem test_decode_sub : decode 0b00000000000000000000000000000011#32 = .command .sub := by decide
theorem test_decode_invSub : decode 0b00000000000000000000000000000100#32 = .command .invSub := by decide
theorem test_decode_rotl3 : decode 0b00000000000000000000000000000101#32 = .command .rotl3 := by decide
theorem test_decode_rotr3 : decode 0b00000000000000000000000000000110#32 = .command .rotr3 := by decide
theorem test_decode_reverse : decode 0b00000000000000000000000000000111#32 = .command .reverse := by decide
theorem test_decode_encode : decode 0b00000000000000000000000000010000#32 = .command .encode := by decide
theorem test_decode_decode : decode 0b00000000000000000000000000010001#32 = .command .decode := by decide

/-- Ill-formed words, one per check: RSVD (R84), each end of the reserved OPC ranges (R83). -/
theorem test_ill_formed_words :
    wellFormedWord 0x00000103 = false ∧ wellFormedWord 0x80000000 = false ∧ wellFormedWord 0x00000008 = false ∧
    wellFormedWord 0x0000000F = false ∧ wellFormedWord 0x00000012 = false ∧ wellFormedWord 0x000000FF = false ∧
    decode 0x00000103 = .rsvd ∧ decode 0x80000000 = .rsvd ∧ decode 0x0000000F = .illegal ∧ decode 0x00000012 = .illegal := by
  decide

theorem test_well_formed_words : (wellFormedWord 0x00000000 && wellFormedWord 0x00000007 && wellFormedWord 0x00000010 &&
    wellFormedWord 0x00000011 && Instr.wellFormed .decode) = true := by decide

/-- Ill-formed transactions (7.2): RD16 CTRL, WR8 LEN, RD32 BUF+2, RD16 BUF+1. -/
theorem test_illegal_transactions :
    (Transaction.read .two 0x00004).legal = false ∧ (Transaction.write 0x00010 (.byte 5)).legal = false ∧
    (Transaction.read .four 0x10002).legal = false ∧ (Transaction.read .two 0x10001).legal = false := by
  decide

theorem test_bus_error : faultAfter (step (turn (.write 0x00010 (.byte 5)) State.reset)) = some (.busError 0x00010) := by decide

/-- Rows that overlap would make a word ambiguous: no two do (R85). -/
theorem test_rows_disjoint : opcodeTable.Pairwise fun a b => a.pattern ≠ b.pattern := by decide

/-! ## Seed, keystream, rotations (sections 2, 3, 5.3) -/

theorem test_seed : seedOf dc = 0x00010203 := by decide

theorem test_keystream : keystream dc 16 = [0x00, 0x04, 0x08, 0x1c, 0x10, 0x0c, 0x18, 0x04, 0x00, 0x04, 0x18, 0x0c, 0x10,
    0x1c, 0x08, 0x04] := by decide

theorem test_rotl3_bytes : [0x01, 0x80, 0x20, 0xe0, 0x41, 0xa5, 0x5a, 0xfb, 0xaf].map rotl3 =
    [0x08, 0x04, 0x01, 0x07, 0x0a, 0x2d, 0xd2, 0xdf, 0x7d] := by decide

theorem test_rotr3_bytes : [0x01, 0x80, 0x20, 0xe0, 0x41, 0xa5, 0x5a, 0xfb, 0xaf].map rotr3 =
    [0x20, 0x10, 0x04, 0x1c, 0x28, 0xb4, 0x4b, 0x7f, 0xf5] := by decide

/-! ## The commands (sections 5 and 6) -/

/-- 5.5: STATUS = 2 and LEN as it was. -/
theorem test_nop : ctlAfter (exec .nop { State.reset with busy := true, len := 0xFFFFFFFF }) = [2, 0xFFFFFFFF, 0, 0] := by decide

theorem test_ksXor : bufAfter 8 (exec .ksXor (idleWith [0x00, 0x01, 0x02, 0x03, 0x04, 0x05, 0x06, 0x07])) =
    [0x00, 0x05, 0x0a, 0x1f, 0x14, 0x09, 0x1e, 0x03] := by decide +kernel

/-- The entries of the Dc tables that 5.2 and 6.2 use, and 0 elsewhere. -/
def dcSbox : Vector Byte 256 := Vector.ofFn fun x =>
  match x.val with
  | 0x00 => 0xd4 | 0x05 => 0xf2 | 0x0a => 0x71 | 0x1f => 0x3c | 0x41 => 0xaf | 0xff => 0x95
  | 0x68 => 0x59 | 0x61 => 0xb1 | 0x64 => 0x99 | 0x70 => 0x06 | 0x7f => 0xdd
  | _ => 0

/-- The same for INV. -/
def dcInv : Vector Byte 256 := Vector.ofFn fun y =>
  match y.val with
  | 0xd4 => 0x00 | 0xf2 => 0x05 | 0x71 => 0x0a | 0x3c => 0x1f | 0x00 => 0x49 | 0x41 => 0xc9 | 0xff => 0x42
  | 0x59 => 0x68 | 0xb1 => 0x61 | 0x99 => 0x64 | 0x06 => 0x70 | 0xdd => 0x7f
  | _ => 0

theorem test_sub : bufAfter 3 (exec .sub { idleWith [0x00, 0x41, 0xff] with sbox := dcSbox }) = [0xd4, 0xaf, 0x95] := by
  decide +kernel

theorem test_invSub : bufAfter 3 (exec .invSub { idleWith [0x00, 0x41, 0xff] with inv := dcInv }) = [0x49, 0xc9, 0x42] := by
  decide +kernel

theorem test_rotl3 : bufAfter 8 (exec .rotl3 (idleWith [0xd4, 0xf2, 0x71, 0x3c, 0x35, 0x6f, 0x58, 0xa1])) =
    [0xa6, 0x97, 0x8b, 0xe1, 0xa9, 0x7b, 0xc2, 0x0d] := by decide +kernel

theorem test_rotr3 : bufAfter 8 (exec .rotr3 (idleWith [0xa6, 0x97, 0x8b, 0xe1, 0xa9, 0x7b, 0xc2, 0x0d])) =
    [0xd4, 0xf2, 0x71, 0x3c, 0x35, 0x6f, 0x58, 0xa1] := by decide +kernel

/-- 5.4, the row with LEN = 4 and four bytes beyond LEN. -/
theorem test_reverse : bufAfter 8 (exec .reverse
    { idleWith [0x01, 0x02, 0x03, 0x04, 0x05, 0x06, 0x07, 0x08] with len := 4 }) =
    [0x04, 0x03, 0x02, 0x01, 0x05, 0x06, 0x07, 0x08] := by decide +kernel

/-- 4.4: BUILD_SBOX is accepted with LEN = 0xFFFFFFFF and ends with STATUS = 0x0000000A. -/
theorem test_buildSbox : ctlAfter (exec .buildSbox { State.reset with busy := true, digest := dc, len := 0xFFFFFFFF }) =
    [0x0000000A, 0xFFFFFFFF, 0x00010203, 0] := by decide

/-- 6.1 and 6.2, "hello" under Dc: the bytes z before the reversal. -/
theorem test_encode_bytes : [(0, 0x68), (1, 0x65), (2, 0x6c), (3, 0x6c), (4, 0x6f)].map (fun p => encodeByte dcSbox dc p.1 p.2) =
    [0xca, 0x8d, 0xcc, 0x30, 0xee] := by decide +kernel

/-- 6.3, "hello" under Dc: the reversed input, decoded at the index after the reversal. -/
theorem test_decode_bytes : [(0, 0xca), (1, 0x8d), (2, 0xcc), (3, 0x30), (4, 0xee)].map (fun p => decodeByte dcInv dc p.1 p.2) =
    [0x68, 0x65, 0x6c, 0x6c, 0x6f] := by decide +kernel

/-- 6.4, LEN = 0: BUF as it was, STATUS = 0x0000000A. -/
theorem test_encode_empty : ctlAfter (exec .encode { idleWith [] with buf := [(0, 0x41)] }) = [0x0000000A, 0, 0x00010203, 0] ∧
    bufAfter 1 (exec .encode { idleWith [] with buf := [(0, 0x41)] }) = [0x41] := by decide +kernel

theorem test_decode_empty : ctlAfter (exec .decode { idleWith [] with buf := [(0, 0x41)] }) = [0x0000000A, 0, 0x00010203, 0] ∧
    bufAfter 1 (exec .decode { idleWith [] with buf := [(0, 0x41)] }) = [0x41] := by decide +kernel

/-! ## The CPY profile: its parts on small arguments (R112, R114, R115, R116) -/

/-- `mt[1]` by R112 from `mt[0] = 1`. -/
theorem test_initGenrand : mtAt (initGenrand 1) 1 = 1812433254 := by decide +kernel

/-- The tempering of 1 by hand: bit 7 from the shift by 7, bit 22 from the shift of bit 7 by 15 (bit 15 is masked), bit 4 from the
shift of bit 22 by 18. -/
theorem test_temper : temper 1 = 0x00400091 ∧ temper 0 = 0 := by decide

/-- `RandBelow` keeps the top bits and takes a value below n (R115): bit length 9 for n = 256. -/
theorem test_bitLength : [2, 255, 256].map bitLength = [2, 8, 9] := by decide

theorem test_swap : (swapEntries identityTable 255 0)[0] = 255 ∧ (swapEntries identityTable 255 0)[255] = 0 := by decide +kernel

/-! ## The assembly notation (P1 of section 10) -/

theorem test_lddig : (asmLddig dc).head? = some (.write 0x00020 (.word 0x03020100)) ∧
    (asmLddig dc).getLast? = some (.write 0x0003C (.word 0x1F1E1D1C)) := by decide +kernel

theorem test_ldbuf : asmLdbuf [0x68, 0x65] = [.write 0x10000 (.byte 0x68), .write 0x10001 (.byte 0x65)] ∧
    asmCmd .encode = .write 0x0000C (.word 0x00000010) := by decide

/-! ## Issue and STATUS (section 7.1) -/

theorem test_accept_nop : ctlAfter (step (turn (asmCmd .nop) State.reset)) = [0x00000001, 0, 0, 0] := by decide

theorem test_no_sbox : ctlAfter (step (turn (asmCmd .sub) State.reset)) = [0x00000504, 0, 0, 0] := by decide

theorem test_cmd_illegal_clears_done :
    ctlAfter (step (turn (asmCmdWord 0x00000020) (withStatus false true false true 0 State.reset))) = [0x0000030C, 0, 0, 0] := by
  decide

theorem test_accept_keeps_err :
    ctlAfter (step (turn (asmCmd .reverse) (withStatus false true true true 2 State.reset))) = [0x0000020D, 0, 0, 0] := by
  decide

theorem test_cmd_busy :
    ctlAfter (step (turn (asmCmdWord 0xFFFFFFFF) (withStatus true false false true 0 State.reset))) = [0x0000010D, 0, 0, 0] := by
  decide

/-- LEN = B + 1 with SBOX_VALID = 0: LEN_RANGE wins over NO_SBOX. -/
theorem test_len_range : (issue 0x00000003 { State.reset with len := BitVec.ofNat 32 (Config.bufBytes + 1) }).statusWord =
    0x00000404 := by
  have h : Config.bufBytes < (BitVec.ofNat 32 (Config.bufBytes + 1)).toNat := by
    have := bufBytes_le
    rw [BitVec.toNat_ofNat]; omega
  have hi : issue 0x00000003 { State.reset with len := BitVec.ofNat 32 (Config.bufBytes + 1) } =
      State.reject { State.reset with len := BitVec.ofNat 32 (Config.bufBytes + 1) } .lenRange := by
    unfold issue
    rw [if_neg (by decide), show decode 0x00000003 = .command .sub by decide]
    exact if_pos ⟨rfl, h⟩
  rw [hi]; rfl

/-! ## Host accesses (sections 2, 7.2, 7.3, 7.5) -/

theorem test_read_id : readAfter (step (turn (.read .four 0x00000) State.reset)) = some (.word 0x43525950) := by decide

theorem test_read_digest_word : readAfter (step (turn (.read .four 0x00020) (idleWith []))) = some (.word 0x03020100) := by
  decide +kernel

theorem test_read_digest_half : readAfter (step (turn (.read .two 0x00022) (idleWith []))) = some (.half 0x0302) := by
  decide +kernel

theorem test_read_buf_half : readAfter (step (turn (.read .two 0x10002) (idleWith [0, 0, 0x34, 0x12]))) = some (.half 0x1234) := by
  decide +kernel

theorem test_read_reserved : readAfter (step (turn (.read .one 0x0FFFF) State.reset)) = some (.byte 0) := by decide +kernel

/-- `WR16 DIGEST+2, 0xBEEF`: SEED = 0x0001EFBE and SBOX_VALID falls. -/
theorem test_write_digest :
    ctlAfter (step (turn (.write 0x00022 (.half 0xBEEF)) (withStatus false false false true 0 (idleWith [])))) =
      [0, 0, 0x0001EFBE, 0] := by decide +kernel

theorem test_busy_len_write :
    ctlAfter (step (turn (asmLdlen 7) (withStatus true false false true 0 (idleWith [])))) = [0x0000060D, 0, 0x00010203, 0] := by
  decide +kernel

theorem test_clrst : [0x00000002, 0x00000004, 0xFFFFFFFF].map
    (fun v => (State.writeStatus (withStatus false true true true 6 State.reset) v).statusWord) =
      [0x0000060C, 0x0000000A, 0x00000008] := by decide

/-- 7.3: IRQ_EN and SRST together, with ENCODE in flight. -/
theorem test_ctrl_abort :
    ctlAfter (step (turn (.write 0x00004 (.word 3)) (withStatus true false false true 0 (idleWith [0x41])))) =
      [0, 1, 0x00010203, 1] := by decide +kernel

/-- 7.4, the five rows: IRQ_EN, DONE, ERR. -/
theorem test_irq : [(false, true, true), (true, true, false), (true, false, true), (true, false, false), (false, false, false)].map
    (fun p => State.irq { State.reset with irqEn := p.1, done := p.2.1, err := p.2.2 }) = [false, true, true, false, false] := by
  decide

theorem test_reset : ctlAfter (.next State.reset) = [0, 0, 0, 0] ∧ State.irq State.reset = false := by decide

/-! ## Witnesses: for every statement with hypotheses, values that meet them -/

/-- A block with ROTL3 in flight. -/
def inFlight : State := State.reset.accept 0x05

theorem witness_StepRunsThePendingCommand :
    inFlight.busy = true ∧ inFlight.pending = opcode .rotl3 ∧ inFlight.inbox = [] ∧
    (inFlight.thenTurns [.core]).busy = true ∧ (inFlight.thenTurns [.core]).pending = opcode .rotl3 ∧
    (inFlight.thenTurns [.core]).inbox = .core :: [] := by decide

theorem witness_IdleCoreDoesNothing :
    State.reset.busy = false ∧ State.reset.inbox = [] ∧
    (State.reset.thenTurns [.core]).busy = false ∧ (State.reset.thenTurns [.core]).inbox = .core :: [] := by decide

theorem witness_CommandWriteThenCoreTurn :
    (State.reset.thenTurns [.host (asmCmd .nop), .core]).inbox = .host (asmCmd .nop) :: .core :: [] := rfl

/-- Each outcome of R183's chain is met by some state and word: busy, RSVD, reserved OPC, LEN = B + 1, no tables, accepted. -/
theorem witness_IssueChecksInOrder :
    inFlight.busy = true ∧ rsvdField 0x00000100 ≠ 0 ∧
    ¬ ((opcField 0x08).toNat ≤ 0x07 ∨ opcField 0x08 = 0x10 ∨ opcField 0x08 = 0x11) ∧
    Config.bufBytes < (BitVec.ofNat 32 (Config.bufBytes + 1)).toNat ∧
    (opcField 0x04 = 0x04 ∧ State.reset.sboxValid = false ∧ ¬ Config.bufBytes < State.reset.len.toNat) ∧
    (turn (.write 0x0000C (.word 0x11)) State.reset).inbox = .host (.write 0x0000C (.word 0x11)) :: [] := by
  refine ⟨by decide, by decide, by decide, ?_, ⟨by decide, by decide, Nat.not_lt_zero _⟩, rfl⟩
  have := bufBytes_le
  rw [BitVec.toNat_ofNat]; omega

/-- The per-byte clauses of the ten result statements: an index below LEN, the last one among them, and the first index at LEN. -/
theorem witness_stage_clauses :
    let s := idleWith [0x41, 0x42]
    0 < s.len.toNat ∧ 1 < s.len.toNat ∧ s.len.toNat ≤ 2 ∧ 0 + 1 + 1 = s.len.toNat ∧ 1 + 0 + 1 = s.len.toNat := by decide

/-- The reset state with valid tables. -/
def fullTables : State := { State.reset with sboxValid := true }

theorem witness_CommandsKeepLenDigestAndRestOfBuf :
    exec .nop State.reset = .next State.reset.complete ∧ State.reset.len.toNat ≤ 0 := ⟨rfl, by decide⟩

theorem witness_EmptyInputChangesNoByte :
    State.reset.len = 0 ∧ State.reset.busy = false ∧ fullTables.len = 0 ∧ fullTables.sboxValid = true := by decide

theorem witness_KeystreamLaws :
    8 % 8 = 0 ∧ (∀ j k, digestAt (Vector.replicate 32 0xff) j = digestAt (Vector.replicate 32 0xff) k) ∧
    (∀ k, k < 32 → digestAt dc k = BitVec.ofNat 8 k) ∧ 5 ≤ 32 := by
  refine ⟨by decide, fun j k => by simp [digestAt], by decide +kernel, by decide⟩

/-- Generators of the second kind exist, with the least and the greatest PGEN_ID: no table is that of two permutations. -/
theorem witness_PgenIdTellsTheProfile : ∃ p h, Generator.id (.other ⟨0, by decide⟩ p h) = 2 ∧
    Generator.id (.other ⟨0xFFFFFFFD, by decide⟩ p h) = 0xFFFFFFFF := by
  have key : ∃ p : Word → Equiv.Perm Byte, ∃ seed, permTable (p seed) ≠ permGenCpy Config.cpyUnending seed := by
    by_contra hc
    push Not at hc
    have h := permTable_inj ((hc (fun _ => 1) 0).trans (hc (fun _ => Equiv.swap 0 1) 0).symm)
    exact absurd (congrArg (fun p => p 0) h) (by decide)
  obtain ⟨p, h⟩ := key
  exact ⟨p, h, rfl, rfl⟩

/-- A generator whose outputs are all 0: the first draw is taken. -/
def zeroGen : CpyGen := { mt := Vector.replicate 624 0, mti := 0 }

theorem witness_BoundedDrawIsBelow : (randBelow 1 zeroGen 256).map Prod.fst = some 0 := by decide +kernel

/-- BuildersLeaveTheSameTables (and BuiltTablesAreInverse, whose only hypothesis names the command): digests that agree on bytes 0
to 3. -/
theorem witness_BuildersLeaveTheSameTables : ∀ k, k < 4 → digestAt dc k = digestAt (putDigest dc 4 [0xff]) k := by
  decide +kernel

/-- LEN at its greatest legal value, BUF_BYTES. -/
def fullLen : State := { State.reset with len := BitVec.ofNat 32 Config.bufBytes, sboxValid := true, sbox := identityTable,
                                          inv := identityTable }

theorem fullLen_count : fullLen.len.toNat = Config.bufBytes := by
  have := bufBytes_le
  show (BitVec.ofNat 32 Config.bufBytes).toNat = _
  rw [BitVec.toNat_ofNat]; omega

/-- StagesUndoEachOther, ByteStagesCommuteWithReverse, DecodeAfterEncodeRestores, EncodeAfterDecodeRestores and
StagesComposeToThePipeline: LEN = BUF_BYTES, the greatest legal value, and tables that are each other's inverse. -/
theorem witness_stage_laws :
    fullLen.busy = false ∧ fullLen.len.toNat ≤ Config.bufBytes ∧ fullLen.sboxValid = true ∧
    Inverse fullLen.sbox fullLen.inv := by
  refine ⟨rfl, le_of_eq fullLen_count, rfl, ?_, ?_⟩ <;>
    (intro x; simp [fullLen, lookup, identityTable])

/-- Two digests that differ (at byte 31) and agree where ENCODE of two bytes looks (R168). -/
theorem witness_EncodeDependsOnlyOnIndexedBytes :
    let s := idleWith [0x41, 0x42]
    let s' := { s with digest := putDigest dc 31 [0xff] }
    s.digest ≠ s'.digest ∧ s.len = s'.len ∧ (∀ k, k < s.len.toNat → s.bufByte k = s'.bufByte k) ∧
    seedOf s.digest = seedOf s'.digest ∧
    (∀ i, i < s.len.toNat → digestAt s.digest (7 * i) = digestAt s'.digest (7 * i) ∧
      digestAt s.digest (3 * i) = digestAt s'.digest (3 * i)) := by
  refine ⟨by decide +kernel, rfl, fun _ _ => rfl, by decide +kernel, by decide +kernel⟩

theorem witness_ParametersAreLegal :
    (Config.base + 0x20000 < Config.base ∨ Config.base + 0x20000 ≤ Config.base + 0x20000) ∧
    (0x1FFFF#17).toNat = 0x1FFFF := ⟨.inr (Nat.le_refl _), by decide⟩

/-- The offset of the last byte of BUF. -/
def lastBuf : BitVec 17 := BitVec.ofNat 17 (0x10000 + (Config.bufBytes - 1))

theorem lastBuf_toNat : lastBuf.toNat = 0x10000 + (Config.bufBytes - 1) := by
  have h1 := bufBytes_le
  have h2 := bufBytes_pos
  rw [lastBuf, BitVec.toNat_ofNat]; omega

/-- The last aligned place of the registers and of each array, and a reserved one. -/
theorem witness_AlignedTransactionsNeverStraddle :
    (0x0001C#17).toNat % Width.four.bytes = 0 ∧ regionOf 0x0001C = .register .pgenId ∧
    (0x0003C#17).toNat % Width.four.bytes = 0 ∧ 3 < Width.four.bytes ∧ regionOf 0x0003C = .digest 28 ∧
    regionOf 0x004FC = .sbox 252 ∧ regionOf 0x005FC = .inv 252 ∧ regionOf 0x003FC = .reserved ∧
    lastBuf.toNat % Width.one.bytes = 0 ∧ regionOf lastBuf = .buf (Config.bufBytes - 1) := by
  refine ⟨by decide, by decide, by decide, by decide, by decide, by decide, by decide, by decide, Nat.mod_one _, ?_⟩
  exact regionOf_buf lastBuf_toNat (by have := bufBytes_pos; omega)

/-- A misaligned transaction, a narrow one at the last register, and a legal one of each kind. -/
theorem witness_BusErrorExactlyWhenIllegal :
    (turn (.read .two 0x10001) State.reset).inbox = .host (.read .two 0x10001) :: [] ∧
    (Transaction.read .two 0x10001).off.toNat % (Transaction.read .two 0x10001).width.bytes ≠ 0 ∧
    ((Transaction.write 0x0001C (.half 0)).off.toNat < 0x20 ∧ (Transaction.write 0x0001C (.half 0)).width ≠ .four) ∧
    (Transaction.read .four 0x0001C).off.toNat % (Transaction.read .four 0x0001C).width.bytes = 0 ∧
    (Transaction.read .four 0x0001C).width = .four ∧ ¬ (Transaction.read .one 0x00021).off.toNat < 0x20 := by decide

theorem witness_RegisterReads :
    ((0x0001C#17), Generator.id Config.generator) ∈ [((0x00018#17), (0 : Word)), (0x0001C, Generator.id Config.generator)] ∧
    (turn (.read .four 0x0001C) State.reset).inbox = .host (.read .four 0x0001C) :: [] := by
  exact ⟨by simp, rfl⟩

/-- The last entry of each array, read by one byte, while BUSY = 0. -/
theorem witness_ArrayReads :
    State.reset.busy = false ∧ ((0x0003F#17).toNat = 0x20 + 31 ∧ 31 < 32) ∧ ((0x004FF#17).toNat = 0x400 + 255 ∧ 255 < 256) ∧
    ((0x005FF#17).toNat = 0x500 + 255 ∧ 255 < 256) ∧
    (lastBuf.toNat = 0x10000 + (Config.bufBytes - 1) ∧ Config.bufBytes - 1 < Config.bufBytes) ∧
    (0x0003F#17).toNat % Width.one.bytes = 0 ∧
    (turn (.read .one 0x0003F) State.reset).inbox = .host (.read .one 0x0003F) :: [] := by
  refine ⟨rfl, by decide, by decide, by decide, ⟨lastBuf_toNat, ?_⟩, by decide, rfl⟩
  have := bufBytes_pos; omega

/-- Busy reads at the first and last offsets of the two ranges. -/
theorem witness_BusyArrayReadsAreDraws :
    inFlight.busy = true ∧ (0x00400#17).toNat % Width.four.bytes = 0 ∧
    (0x400 ≤ (0x00400#17).toNat ∧ (0x005FF#17).toNat < 0x600) ∧
    (0x10000 ≤ lastBuf.toNat ∧ lastBuf.toNat < 0x10000 + Config.bufBytes) ∧
    (turn (.read .four 0x00400) inFlight).inbox = .host (.read .four 0x00400) :: [] := by
  refine ⟨rfl, by decide, by decide, ?_, rfl⟩
  have := bufBytes_pos
  rw [lastBuf_toNat]; omega

theorem witness_ReadsChangeNoState :
    ∃ t, step (turn (.read .four 0x00008) inFlight) = .next t ∧
      (turn (.read .four 0x00008) inFlight).inbox = .host (.read .four 0x00008) :: [] :=
  ⟨_, step_read rfl (by decide) (by decide), rfl⟩

/-- Reserved space at its edges, the read-only arrays and the read-only registers. -/
theorem witness_ReservedAndReadOnlyIgnoreWrites :
    (0x40 ≤ (0x00040#17).toNat ∧ (0x003FF#17).toNat < 0x400) ∧ (0x600 ≤ (0x00600#17).toNat ∧ (0x0FFFF#17).toNat < 0x10000) ∧
    (BusData.word 0).width = .four ∧ (0x0001C#17).toNat % (BusData.word 0).width.bytes = 0 ∧
    (0x0FFFF#17).toNat % Width.one.bytes = 0 ∧
    (turn (.write 0x0001C (.word 0)) inFlight).inbox = .host (.write 0x0001C (.word 0)) :: [] := by decide

/-- The first and the last place of DIGEST, idle and busy. -/
theorem witness_DigestWriteStoresAndInvalidates :
    ((0x00020#17).toNat = 0x20 + 0 ∧ (0x0003F#17).toNat = 0x20 + 31 ∧ 31 < 32) ∧
    (0x0003F#17).toNat % (BusData.byte 0).width.bytes = 0 ∧ State.reset.busy = false ∧ inFlight.busy = true ∧
    (turn (.write 0x0003F (.byte 0)) inFlight).inbox = .host (.write 0x0003F (.byte 0)) :: [] := by decide

theorem witness_BufWriteStores :
    State.reset.busy = false ∧ lastBuf.toNat = 0x10000 + (Config.bufBytes - 1) ∧ Config.bufBytes - 1 < Config.bufBytes ∧
    lastBuf.toNat % (BusData.byte 0).width.bytes = 0 ∧
    (turn (.write lastBuf (.byte 0)) State.reset).inbox = .host (.write lastBuf (.byte 0)) :: [] := by
  refine ⟨rfl, lastBuf_toNat, ?_, Nat.mod_one _, rfl⟩
  have := bufBytes_pos; omega

theorem witness_LenWriteStoresAllBits :
    State.reset.busy = false ∧ (turn (asmLdlen 0xFFFFFFFF) State.reset).inbox = .host (asmLdlen 0xFFFFFFFF) :: [] := by decide

theorem witness_BusyAccessIsDropped :
    inFlight.busy = true ∧ (0x00010#17).toNat % (BusData.word 7).width.bytes = 0 ∧ (BusData.word 7).width = .four ∧
    (0x20 ≤ (0x00020#17).toNat ∧ (0x0003F#17).toNat < 0x40) ∧
    (0x10000 ≤ (0x10000#17).toNat ∧ lastBuf.toNat < 0x10000 + Config.bufBytes) ∧
    (turn (asmLdlen 7) inFlight).inbox = .host (.write 0x00010 (.word 7)) :: [] := by
  refine ⟨rfl, by decide, rfl, by decide, ⟨by decide, ?_⟩, rfl⟩
  have := bufBytes_pos
  rw [lastBuf_toNat]; omega

/-- StatusWriteClears, CtrlWriteSetsIrqEnThenResets and IrqFollowsItsCauses. -/
theorem witness_status_and_ctrl_writes :
    (turn asmClrst State.reset).inbox = .host (.write 0x00008 (.word 6)) :: [] ∧ (6#32).getLsbD 1 = true ∧
    (6#32).getLsbD 2 = true ∧ (turn (.write 0x00004 (.word 1)) State.reset).inbox = .host (.write 0x00004 (.word 1)) :: [] ∧
    (1#32).getLsbD 0 = true ∧ (1#32).getLsbD 1 = false := by decide

/-- The premises of R213's clauses: idle; a build in flight, which is no transforming command; a stage in flight, which is no
build. -/
theorem witness_SoftResetEffect :
    State.reset.busy = false ∧ (opcode .buildSbox) ∉ [0x02, 0x03, 0x04, 0x05, 0x06, 0x07, 0x10, 0x11] ∧
    inFlight.busy = true ∧ inFlight.pending ∉ [0x01, 0x10, 0x11] ∧ State.reset.len.toNat ≤ 0 := by decide

theorem witness_HardResetValues : (inFlight.thenTurns [.hardReset]).inbox = .hardReset :: [] := rfl

/-- OnlyBusErrorsStopARun: a state with the invariant and a command in flight, before any turns. -/
theorem witness_inFlight_inv (l : List Event) : (inFlight.thenTurns l).Inv := by
  have h : State.reset.Inv := inv_of_idle rfl rfl rfl rfl rfl
  refine inv_thenTurns l { h with busyNotDone := fun _ => rfl, flightAccepted := fun _ => ⟨.rotl3, by decide, ?_, ?_⟩ }
  · exact fun _ => Nat.zero_le _
  · intro hc; cases hc

theorem witness_InvariantKeptByEveryStep :
    (inFlight.thenTurns [.core]).Inv ∧ ∃ t, step (inFlight.thenTurns [.core]) = .next t :=
  ⟨witness_inFlight_inv _, _, rfl⟩

theorem witness_CommandInFlightCompletes :
    (inFlight.thenTurns []).Inv ∧ (inFlight.thenTurns []).busy = true ∧ (inFlight.thenTurns []).inbox = [] ∧
    (inFlight.thenTurns [.core]).inbox = .core :: [] :=
  ⟨witness_inFlight_inv _, rfl, rfl, rfl⟩

/-- BUSY falls at CORE's turn; SBOX_VALID rises at a build's completion and falls at a DIGEST write. -/
theorem witness_OnlyTheseEventsChangeBusyAndSboxValid :
    ctlAfter (step inFlight) = [2, 0, 0, 0] ∧ ctlAfter (.next inFlight) = [1, 0, 0, 0] ∧
    ctlAfter (step (State.reset.accept 0x01)) = [0x0000000A, 0, 0, 0] ∧
    ctlAfter (step (turn (.write 0x00020 (.byte 0)) { State.reset with sboxValid := true })) = [0, 0, 0, 0] := by
  decide +kernel

theorem witness_DoneRaceAllowsBothOrders :
    inFlight.busy = true ∧ inFlight.pending = opcode .rotl3 ∧ (2#32).getLsbD 1 = true ∧
    (inFlight.thenTurns [.core, .host (.write 0x00008 (.word 2))]).inbox = .core :: .host (.write 0x00008 (.word 2)) :: [] ∧
    (inFlight.thenTurns [.host (.write 0x00008 (.word 2)), .core]).inbox = .host (.write 0x00008 (.word 2)) :: .core :: [] := by
  decide

/-! ## The host's two questions (log entry 9) -/

theorem test_placed_word_decodes : decodeTableWord 32 0x00000011 = some .decode ∧ decodeTableWord 32 0x00000108 = none := by
  decide

theorem test_placed_word_runs : ctlAfter (step (State.reset.withFetchWord 32 0x00000011)) = [0x0000000A, 0, 0, 0] ∧
    ctlAfter (step (State.reset.withFetchWord 32 0x00000108)) = [0x00000204, 0, 0, 0] := by decide +kernel

end Sys2Proof.Tests
end

section
/-! The scope of the block: what no command writes (R13, R166), the empty input (R14), and the open parameters with the
window they place (R5, R7, R50). -/

namespace Sys2Proof.Proofs

open Sys2Proof Sys2Proof.Machine

/-! ## What a command leaves of LEN, DIGEST and BUF -/

theorem exec_completed {i : Instr} {s t : State} (h : exec i s = .next t) : Completed t := by
  obtain ⟨f, rfl⟩ := exec_next h
  exact ⟨rfl, rfl⟩

theorem exec_keeps_len {i : Instr} {s t : State} (h : exec i s = .next t) : t.len = s.len := by
  obtain ⟨f, rfl⟩ := exec_next h
  exact CoreEffect_len i f s

theorem exec_keeps_digest {i : Instr} {s t : State} (h : exec i s = .next t) : t.digest = s.digest := by
  obtain ⟨f, rfl⟩ := exec_next h
  exact CoreEffect_digest i f s

theorem exec_keeps_bufByte_of_len_le {i : Instr} {s t : State} (h : exec i s = .next t) {k : Nat}
    (hk : s.len.toNat ≤ k) : t.bufByte k = s.bufByte k := by
  obtain ⟨f, rfl⟩ := exec_next h
  have outside : ¬ (usesLen i = true ∧ k < s.count) := fun hc => Nat.not_lt_of_le hk hc.2
  rw [State.bufByte_complete, CoreEffect_bufByte, if_neg outside]

/-- Settles O21: the effect of a command is a rewrite of BUF below LEN, a table build, both or neither. -/
theorem commandsKeepLenDigestAndRestOfBuf : Obligations.CommandsKeepLenDigestAndRestOfBuf :=
  fun _ _ _ h => ⟨exec_keeps_len h, exec_keeps_digest h, fun _ hk => exec_keeps_bufByte_of_len_le h hk⟩

/-! ## The empty input -/

/-- With LEN = 0 every byte of BUF lies at or beyond LEN, so the frame of R13 covers the whole of BUF. -/
theorem exec_sameBuf_of_len_zero (i : Instr) {s : State} (h0 : s.len = 0) :
    ∃ t, exec i s = .next t ∧ Completed t ∧ SameBuf s t := by
  obtain ⟨f, h⟩ := exec_shape i s
  exact ⟨_, h, exec_completed h, fun k => exec_keeps_bufByte_of_len_le h (by simp [h0])⟩

/-- With LEN = 0 the check of R187 passes, whatever the capacity. -/
theorem runCommand_of_len_zero {i : Instr} {s : State} (h0 : s.len = 0) (hb : s.busy = false)
    (hv : needsTables i = true → s.sboxValid = true) : runCommand i s = exec i (s.accept (opcode i)) :=
  runCommand_inRange hb (by simp [State.count, h0]) hv

/-- Settles O22: the accepted state has the LEN and the bytes of BUF of the idle one. -/
theorem emptyInputChangesNoByte : Obligations.EmptyInputChangesNoByte := by
  intro i s h0
  refine ⟨exec_sameBuf_of_len_zero i h0, fun hb hv => ?_⟩
  rw [runCommand_of_len_zero h0 hb hv]
  obtain ⟨t, ht, hc, hsame⟩ := exec_sameBuf_of_len_zero i (s := s.accept (opcode i)) h0
  exact ⟨t, ht, hc, hsame⟩

/-! ## The open parameters and the window -/

theorem base_mod : Config.base % 0x20000 = 0 := Nat.mul_mod_right _ _

theorem windowOffset_base_add (off : BitVec 17) : windowOffset (Config.base + off.toNat) = some off := by
  have inside : off.toNat < 0x20000 := off.isLt
  rw [windowOffset, if_pos ⟨by omega, by omega⟩, Nat.add_sub_cancel_left, BitVec.ofNat_toNat, BitVec.setWidth_eq]

theorem windowOffset_outside {addr : Nat} (h : addr < Config.base ∨ Config.base + 0x20000 ≤ addr) :
    windowOffset addr = none := by
  rw [windowOffset, if_neg (by omega)]

/-- Settles O36: the types of the parameters admit legal values only, and the window is decided by two comparisons. -/
theorem parametersAreLegal : Obligations.ParametersAreLegal :=
  ⟨bufBytes_mod, bufBytes_pos, bufBytes_le, base_mod, windowOffset_base_add, fun _ => windowOffset_outside⟩

end Sys2Proof.Proofs
end

section
/-! The turns of R38: a step is the turn of whoever is next, CORE's turn runs the command in flight or nothing, and every
turn keeps the invariant of 95_test_vectors.md section 8. -/

namespace Sys2Proof.Proofs

open Sys2Proof Sys2Proof.Machine

/-! ## CORE's turn -/

theorem step_core {s : State} {rest : List Event} (h : s.inbox = .core :: rest) :
    step s = coreStep (s.thenTurns rest) :=
  step_cons h

/-- Settles O4: the turn taken off the inbox leaves BUSY and PENDING as they were. -/
theorem stepRunsThePendingCommand : Obligations.StepRunsThePendingCommand := by
  intro s rest i hb hp
  refine ⟨fun hin => ?_, fun hin => ?_⟩
  · have inFlight : coreStep (s.thenTurns rest) = exec i (s.thenTurns rest) := coreStep_flight hb hp
    rw [step_core hin, inFlight]
  · rw [step_nil hin, coreStep_flight hb hp]

/-- Settles O5: an idle CORE has no step of its own. -/
theorem idleCoreDoesNothing : Obligations.IdleCoreDoesNothing := by
  intro s rest hb
  refine ⟨fun hin => ?_, fun hin => ?_⟩
  · have idle : coreStep (s.thenTurns rest) = .next (s.thenTurns rest) := coreStep_idle hb
    rw [step_core hin, idle]
  · rw [step_nil hin, coreStep_idle hb]

/-! ## The invariant -/

/-- With an empty inbox the turn is CORE's (log entry 7), and taking it off leaves the state as it is. -/
theorem step_eq_takeTurn (s : State) : step s = takeTurn s.turn (s.thenTurns s.inbox.tail) := by
  cases h : s.inbox with
  | nil =>
    have unchanged : s.thenTurns [] = s := by rw [← h]; rfl
    rw [step_nil h, turn_nil h, List.tail_nil, unchanged, takeTurn]
  | cons e rest => rw [step_cons h, turn_cons h, List.tail_cons]

theorem inv_hardReset (s : State) : s.hardReset.Inv := inv_of_idle rfl rfl rfl rfl rfl

theorem inv_hostStep {x : Transaction} {s t : State} (h : s.Inv) (hx : hostStep x s = .next t) : t.Inv := by
  obtain ⟨legal, ⟨n, off, rfl, rfl⟩ | ⟨off, d, rfl, rfl⟩⟩ := hostStep_next hx
  · exact inv_hostRead n off h
  · exact inv_hostWrite ((Transaction.legal_iff _).1 legal).1 h

theorem inv_takeTurn {e : Event} {s t : State} (h : s.Inv) (ht : takeTurn e s = .next t) : t.Inv := by
  cases e with
  | host x => exact inv_hostStep h ht
  | core =>
    obtain ⟨u, hu, inv_u⟩ := inv_coreStep h
    obtain rfl : u = t := Host.Outcome.next.inj (hu.symm.trans ht)
    exact inv_u
  | hardReset =>
    obtain rfl : s.hardReset = t := Host.Outcome.next.inj ht
    exact inv_hardReset s

/-- Settles O56: a step is one turn, and the turn of each agent keeps the invariant. -/
theorem invariantKeptByEveryStep : Obligations.InvariantKeptByEveryStep := by
  intro s t h ht
  rw [step_eq_takeTurn] at ht
  exact inv_takeTurn (inv_thenTurns _ h) ht

end Sys2Proof.Proofs
end

section
/-! The identifying and control words: PGEN_ID tells the profile (R32, R110), and the places of the bits of STATUS and CTRL
(R29, R30). -/

namespace Sys2Proof.Proofs

open Sys2Proof Sys2Proof.Machine

/-! ## PGEN_ID -/

/-- A generator of the second kind carries a seed at which its table is not that of PERM_GEN_CPY (R110). -/
theorem generator_eq_cpy_of_table {g : Generator}
    (h : ∀ seed, Generator.table g seed = permGenCpy Config.cpyUnending seed) : g = .cpy := by
  cases g with
  | cpy => rfl
  | other k p notCpy =>
    obtain ⟨seed, differs⟩ := notCpy
    exact absurd (h seed) differs

/-- Settles O26: the id of a generator of the second kind is at least 2. -/
theorem pgenIdTellsTheProfile : Obligations.PgenIdTellsTheProfile := by
  intro g
  obtain ⟨rfl, hid⟩ | ⟨k, p, notCpy, rfl, hid⟩ := generator_id_cases g
  · rw [hid]
    exact ⟨by decide, fun _ _ => rfl, fun _ => rfl⟩
  · refine ⟨fun h0 => ?_, fun h1 => ?_, fun h => ?_⟩
    · simp [h0] at hid
    · simp [h1] at hid
    · cases generator_eq_cpy_of_table h

/-! ## STATUS and CTRL, bit by bit -/

theorem getLsbD_append_bit_zero {n : Nat} (x : BitVec n) (b : Bool) : (x ++ bit b).getLsbD 0 = b := by
  rw [BitVec.getLsbD_append, if_pos Nat.one_pos, bit]
  simp

theorem getLsbD_append_bit_succ {n : Nat} (x : BitVec n) (b : Bool) (k : Nat) :
    (x ++ bit b).getLsbD (k + 1) = x.getLsbD k := by
  simp [BitVec.getLsbD_append]

theorem statusWord_flags (s : State) :
    s.statusWord.getLsbD 0 = s.busy ∧ s.statusWord.getLsbD 1 = s.done ∧ s.statusWord.getLsbD 2 = s.err ∧
      s.statusWord.getLsbD 3 = s.sboxValid := by
  simp only [State.statusWord, getLsbD_append_bit_zero, getLsbD_append_bit_succ, and_self]

/-- Above the four flags STATUS holds four zeroes, ERRCODE and zeroes again. -/
theorem statusWord_above_flags (s : State) (k : Nat) :
    s.statusWord.getLsbD (k + 4) = (decide (4 ≤ k) && s.errcode.getLsbD (k - 4)) := by
  simp only [State.statusWord, getLsbD_append_bit_succ]
  rw [BitVec.getLsbD_append, BitVec.getLsbD_append]
  by_cases low : k < 4
  · simp [low]
  · by_cases mid : k - 4 < 4
    · simp [mid, Nat.le_of_not_lt low]
    · simp [mid, low, BitVec.getLsbD_of_ge _ _ (Nat.le_of_not_lt mid)]

theorem ctrlWord_getLsbD_zero (s : State) : s.ctrlWord.getLsbD 0 = s.irqEn :=
  getLsbD_append_bit_zero _ _

theorem ctrlWord_getLsbD_succ (s : State) (k : Nat) : s.ctrlWord.getLsbD (k + 1) = false := by
  simp only [State.ctrlWord, getLsbD_append_bit_succ, BitVec.getLsbD_zero]

/-- Settles O40: each field of the two words is read off bit by bit. -/
theorem controlWordLayout : Obligations.ControlWordLayout := by
  intro s
  obtain ⟨busy, done, err, sboxValid⟩ := statusWord_flags s
  refine ⟨⟨busy, done, err, sboxValid, ?_, ?_, ?_⟩, ctrlWord_getLsbD_zero s, ?_⟩
  · refine BitVec.eq_of_getLsbD_eq fun k hk => ?_
    simp [hk, Nat.add_comm 4 k, statusWord_above_flags]
  · refine BitVec.eq_of_getLsbD_eq fun k hk => ?_
    simp [hk, show 8 + k = k + 4 + 4 by omega, statusWord_above_flags]
  · refine BitVec.eq_of_getLsbD_eq fun k hk => ?_
    simp [hk, show 12 + k = k + 8 + 4 by omega, statusWord_above_flags]
  · refine BitVec.eq_of_getLsbD_eq fun k hk => ?_
    simp [hk, Nat.add_comm 1 k, ctrlWord_getLsbD_succ]

end Sys2Proof.Proofs
end

section
/-! Host writes that the block accepts: the arrays DIGEST and BUF (R43, R27), and the registers LEN, STATUS and CTRL (R28,
R41, R42). -/

namespace Sys2Proof.Proofs

open Sys2Proof Sys2Proof.Machine

/-! ## Writes to DIGEST and BUF -/

/-- Above the register region every width is allowed (R53), so alignment is all a write needs. -/
theorem step_writeArray {s : State} {off : BitVec 17} {d : BusData} {rest : List Event}
    (h : s.inbox = .host (.write off d) :: rest) (ho : 0x20 ≤ off.toNat) (ha : off.toNat % d.width.bytes = 0) :
    step s = .next ((s.thenTurns rest).hostWrite off d) :=
  step_write h ha fun inRegisters => absurd inRegisters (Nat.not_lt_of_le ho)

theorem hostWrite_digest {s : State} {off : BitVec 17} {d : BusData} {k : Nat} (hb : s.busy = false)
    (hr : regionOf off = .digest k) : s.hostWrite off d = s.writeDigest k d.bytes := by
  rw [hostWrite_open (.inl hb), hr]

theorem hostWrite_buf {s : State} {off : BitVec 17} {d : BusData} {k : Nat} (hb : s.busy = false)
    (hr : regionOf off = .buf k) : s.hostWrite off d = s.writeBuf k d.bytes := by
  rw [hostWrite_open (.inl hb), hr]

/-- An aligned transaction that begins inside DIGEST ends inside DIGEST (R54). -/
theorem digest_store_inside {off : BitVec 17} {d : BusData} {k : Nat} (ho : off.toNat = 0x20 + k) (hk : k < 32)
    (ha : off.toNat % d.width.bytes = 0) : k + d.bytes.length ≤ 32 := by
  rw [d.length_bytes]
  cases hw : d.width <;> rw [hw] at ha <;> simp only [Width.bytes] at ha ⊢ <;> omega

/-- Settles O46: while idle the new digest is `putDigest` of the old one, and alignment keeps it from wrapping round. -/
theorem digestWriteStoresAndInvalidates : Obligations.DigestWriteStoresAndInvalidates := by
  intro s rest off d k ho hk ha hin
  have hr : regionOf off = .digest k := regionOf_digest ho hk
  have hstep := step_writeArray hin (by omega) ha
  refine ⟨fun hb => ⟨putDigest s.digest k d.bytes, ?_, ?_⟩, fun hb => ?_⟩
  · have idle : (s.thenTurns rest).busy = false := hb
    rw [hstep, hostWrite_digest idle hr]; rfl
  · exact digestAt_putDigest s.digest k d.bytes (digest_store_inside ho hk ha)
  · have inFlight : (s.thenTurns rest).busy = true := hb
    rw [hstep, hostWrite_frozen inFlight (by rw [hr]; rfl)]; rfl

/-- Settles O47: the new memory is `Memory.writeBytes` of the old one, read back by the law of `writeBuf`. -/
theorem bufWriteStores : Obligations.BufWriteStores := by
  intro s rest off d k hb ho hk ha hin
  have idle : (s.thenTurns rest).busy = false := hb
  refine ⟨Memory.writeBytes s.buf k d.bytes, ?_, ?_⟩
  · rw [step_writeArray hin (by omega) ha, hostWrite_buf idle (regionOf_buf ho hk)]; rfl
  · exact State.bufByte_writeBuf (s.thenTurns rest) k d.bytes

/-! ## Writes to LEN, STATUS and CTRL -/

/-- Settles O48: LEN is protected only while a command is in flight (R189). -/
theorem lenWriteStoresAllBits : Obligations.LenWriteStoresAllBits := by
  intro s rest v hb hin
  have idle : (s.thenTurns rest).busy = false := hb
  have aligned : (0x00010 : BitVec 17).toNat % 4 = 0 := by decide
  rw [step_write hin aligned fun _ => rfl, hostWrite_open (.inl idle)]
  rfl

/-- Settles O50: the write of STATUS is never held back by the busy window. -/
theorem statusWriteClears : Obligations.StatusWriteClears := by
  intro s rest v hin
  exact step_writeReg (r := .status) hin (by decide) (by decide) rfl (by decide)

/-- Settles O51: the write of CTRL is never held back, and a soft reset keeps IRQ_EN as written. -/
theorem ctrlWriteSetsIrqEnThenResets : Obligations.CtrlWriteSetsIrqEnThenResets := by
  intro s rest v hin
  have written : step s = .next ((s.thenTurns rest).writeCtrl v) :=
    step_writeReg (r := .ctrl) hin (by decide) (by decide) rfl (by decide)
  obtain ⟨-, -, irqKept, -⟩ := softReset_keeps { s with inbox := rest, irqEn := v.getLsbD 0 }
  exact ⟨written, irqKept⟩

end Sys2Proof.Proofs
end

section
/-! The window under alignment: an aligned transaction stays in the region it begins in (R51, R54), and is served exactly
when R53 and R54 allow it (R55). -/

namespace Sys2Proof.Proofs

open Sys2Proof Sys2Proof.Machine

/-! ## Where an entry of the map lies -/

theorem regionOf_digest_bound {off : BitVec 17} {k : Nat} (h : regionOf off = .digest k) :
    off.toNat = 0x20 + k ∧ k < 32 := by
  simpa [h] using regionOf_cases off

theorem regionOf_sbox_bound {off : BitVec 17} {k : Nat} (h : regionOf off = .sbox k) :
    off.toNat = 0x400 + k ∧ k < 256 := by
  simpa [h] using regionOf_cases off

theorem regionOf_inv_bound {off : BitVec 17} {k : Nat} (h : regionOf off = .inv k) :
    off.toNat = 0x500 + k ∧ k < 256 := by
  simpa [h] using regionOf_cases off

theorem regionOf_reserved_bound {off : BitVec 17} (h : regionOf off = .reserved) :
    (0x40 ≤ off.toNat ∧ off.toNat < 0x400) ∨ (0x600 ≤ off.toNat ∧ off.toNat < 0x10000) ∨
      0x10000 + Config.bufBytes ≤ off.toNat := by
  simpa [h] using regionOf_cases off

/-! ## Alignment -/

/-- The width of a transaction divides 4, so no multiple of 4 lies inside an aligned one. -/
theorem aligned_add_lt {n : Width} {a j m : Nat} (ha : a % n.bytes = 0) (hj : j < n.bytes) (hm : m % 4 = 0) (h : a < m) :
    a + j < m := by
  cases n <;> simp only [Width.bytes] at ha hj <;> omega

theorem aligned_add_div_four {n : Width} {a j : Nat} (ha : a % n.bytes = 0) (hj : j < n.bytes) : (a + j) / 4 = a / 4 := by
  have below : a + j < 4 * (a / 4 + 1) := aligned_add_lt ha hj (Nat.mul_mod_right _ _) (by omega)
  omega

theorem aligned_toNat_add {off : BitVec 17} {n : Width} {j : Nat} (ha : off.toNat % n.bytes = 0) (hj : j < n.bytes) :
    (off + BitVec.ofNat 17 j).toNat = off.toNat + j := by
  have inside : off.toNat + j < 2 ^ 17 := aligned_add_lt ha hj (by decide) off.isLt
  rw [BitVec.toNat_add, BitVec.toNat_ofNat, Nat.add_mod_mod, Nat.mod_eq_of_lt inside]

/-- Settles O37: every border of R51 is a multiple of 4, BUF_BYTES too (R5), and an aligned transaction crosses none. -/
theorem alignedTransactionsNeverStraddle : Obligations.AlignedTransactionsNeverStraddle := by
  intro off n j k ha hj
  have address : (off + BitVec.ofNat 17 j).toNat = off.toNat + j := aligned_toNat_add ha hj
  have noBorder : ∀ m, m % 4 = 0 → off.toNat < m → off.toNat + j < m := fun m => aligned_add_lt ha hj
  refine ⟨address, fun r hr => ?_, fun hr => ?_, fun hr => ?_, fun hr => ?_, fun hr => ?_, fun hr => ?_⟩
  · have low := regionOf_eq_register hr
    have := noBorder 0x20 (by decide) low
    rw [regionOf_register (by omega), address, aligned_add_div_four ha hj, ← hr, regionOf_register low]
  · obtain ⟨ho, hk⟩ := regionOf_digest_bound hr
    have := noBorder 0x40 (by decide) (by omega)
    exact ⟨by omega, regionOf_digest (by omega) (by omega)⟩
  · obtain ⟨ho, hk⟩ := regionOf_sbox_bound hr
    have := noBorder 0x500 (by decide) (by omega)
    exact ⟨by omega, regionOf_sbox (by omega) (by omega)⟩
  · obtain ⟨ho, hk⟩ := regionOf_inv_bound hr
    have := noBorder 0x600 (by decide) (by omega)
    exact ⟨by omega, regionOf_inv (by omega) (by omega)⟩
  · obtain ⟨ho, hk⟩ := regionOf_buf_bound hr
    have := noBorder (0x10000 + Config.bufBytes) (by have := bufBytes_mod; omega) (by omega)
    exact ⟨by omega, regionOf_buf (by omega) (by omega)⟩
  · have range := regionOf_reserved_bound hr
    have := noBorder 0x400 (by decide)
    have := noBorder 0x10000 (by decide)
    exact regionOf_reserved (by omega)

/-! ## Bus errors -/

theorem hostStep_illegal {x : Transaction} {s : State} (h : ¬ x.legal = true) : hostStep x s = .fault (.busError x.off) := by
  unfold hostStep
  rw [if_neg h]

/-- Settles O38: the two clauses are the two sides of `Transaction.legal_iff`. -/
theorem busErrorExactlyWhenIllegal : Obligations.BusErrorExactlyWhenIllegal := by
  intro s x rest hin
  rw [step_cons hin, takeTurn]
  refine ⟨fun bad => hostStep_illegal ?_, fun aligned width => hostStep_legal ?_⟩
  · rw [Transaction.legal_iff]
    rintro ⟨aligned, width⟩
    obtain misaligned | ⟨low, wrongWidth⟩ := bad
    · exact misaligned aligned
    · exact wrongWidth (width low)
  · exact (Transaction.legal_iff x).2 ⟨aligned, width⟩

end Sys2Proof.Proofs
end

section
/-! Host reads (R56, R57, R59): what a read of each region answers, and that no read changes the block. -/

namespace Sys2Proof.Proofs

open Sys2Proof Sys2Proof.Machine

/-! ## Reads of registers -/

/-- The offsets of the eight registers (R51). -/
def registerOffset : Reg → BitVec 17
  | .id => 0x00000
  | .ctrl => 0x00004
  | .status => 0x00008
  | .cmd => 0x0000C
  | .len => 0x00010
  | .seed => 0x00014
  | .cap => 0x00018
  | .pgenId => 0x0001C

theorem registerOffset_place (r : Reg) :
    (registerOffset r).toNat < 0x20 ∧ (registerOffset r).toNat % 4 = 0 ∧ regAt ((registerOffset r).toNat / 4) = r := by
  cases r <;> decide

theorem regionOf_registerOffset (r : Reg) : regionOf (registerOffset r) = .register r := by
  obtain ⟨low, -, at_r⟩ := registerOffset_place r
  rw [regionOf_register low, at_r]

/-- The turn taken off the inbox plays no part in the value a register shows. -/
theorem step_readRegister (r : Reg) {s : State} {rest : List Event}
    (h : s.inbox = .host (.read .four (registerOffset r)) :: rest) :
    step s = .next { s with inbox := rest, rdata := some (.word (s.readReg r)) } := by
  obtain ⟨low, aligned, at_r⟩ := registerOffset_place r
  have sameValue : (s.thenTurns rest).readReg r = s.readReg r := by cases r <;> rfl
  rw [step_readReg h low aligned at_r, sameValue]
  rfl

/-- Settles O39: one row of the list for each register. -/
theorem registerReads : Obligations.RegisterReads := by
  intro s rest off v row hin
  simp only [List.mem_cons, Prod.mk.injEq, List.not_mem_nil, or_false] at row
  obtain ⟨rfl, rfl⟩ | ⟨rfl, rfl⟩ | ⟨rfl, rfl⟩ | ⟨rfl, rfl⟩ | ⟨rfl, rfl⟩ | ⟨rfl, rfl⟩ | ⟨rfl, rfl⟩ | ⟨rfl, rfl⟩ := row
  · exact step_readRegister .id hin
  · exact step_readRegister .ctrl hin
  · exact step_readRegister .status hin
  · exact step_readRegister .cmd hin
  · exact step_readRegister .len hin
  · exact step_readRegister .seed hin
  · exact step_readRegister .cap hin
  · exact step_readRegister .pgenId hin

/-! ## Reads of arrays and reserved space -/

section
variable {s : State} {n : Width} {off : BitVec 17} {k : Nat}

theorem hostRead_digest (hr : regionOf off = .digest k) :
    s.hostRead n off = s.answer (packLE n fun j => digestAt s.digest (k + j)) := by
  rw [State.hostRead, hr]

theorem hostRead_reserved (hr : regionOf off = .reserved) : s.hostRead n off = s.answer (packLE n fun _ => 0) := by
  rw [State.hostRead, hr]

theorem hostRead_sbox (hb : s.busy = false) (hr : regionOf off = .sbox k) :
    s.hostRead n off = s.answer (packLE n fun j => lookup s.sbox (BitVec.ofNat 8 (k + j))) := by
  simp only [State.hostRead, hr, hb, Bool.false_eq_true, if_false, tableAt]

theorem hostRead_inv (hb : s.busy = false) (hr : regionOf off = .inv k) :
    s.hostRead n off = s.answer (packLE n fun j => lookup s.inv (BitVec.ofNat 8 (k + j))) := by
  simp only [State.hostRead, hr, hb, Bool.false_eq_true, if_false, tableAt]

theorem hostRead_buf (hb : s.busy = false) (hr : regionOf off = .buf k) :
    s.hostRead n off = s.answer (packLE n fun j => s.bufByte (k + j)) := by
  simp only [State.hostRead, hr, hb, Bool.false_eq_true, if_false]

/-- The arrays a command in flight may be rewriting answer with a draw (R56). -/
theorem hostRead_busy (hb : s.busy = true)
    (hr : (∃ k, regionOf off = .sbox k) ∨ (∃ k, regionOf off = .inv k) ∨ (∃ k, regionOf off = .buf k)) :
    s.hostRead n off = s.answerAny n := by
  obtain ⟨k, hr⟩ | ⟨k, hr⟩ | ⟨k, hr⟩ := hr <;> simp only [State.hostRead, hr, hb, if_true]

/-- Above the register region every width is allowed (R53), so alignment is all a read needs. -/
theorem step_readArray {rest : List Event} (h : s.inbox = .host (.read n off) :: rest) (ho : 0x20 ≤ off.toNat)
    (ha : off.toNat % n.bytes = 0) : step s = .next ((s.thenTurns rest).hostRead n off) :=
  step_read h ha fun inRegisters => absurd inRegisters (Nat.not_lt_of_le ho)

end

/-- Settles O41: each array's row of the map, and the answer of a read there. -/
theorem arrayReads : Obligations.ArrayReads := by
  intro s rest n off k ha hin
  refine ⟨fun ho hk => ?_, fun hb ho hk => ?_, fun hb ho hk => ?_, fun hb ho hk => ?_⟩
  · rw [step_readArray hin (by omega) ha, hostRead_digest (regionOf_digest ho hk)]; rfl
  · have idle : (s.thenTurns rest).busy = false := hb
    rw [step_readArray hin (by omega) ha, hostRead_sbox idle (regionOf_sbox ho hk)]; rfl
  · have idle : (s.thenTurns rest).busy = false := hb
    rw [step_readArray hin (by omega) ha, hostRead_inv idle (regionOf_inv ho hk)]; rfl
  · have idle : (s.thenTurns rest).busy = false := hb
    rw [step_readArray hin (by omega) ha, hostRead_buf idle (regionOf_buf ho hk)]; rfl

theorem regionOf_table_or_buf {off : BitVec 17}
    (h : (0x400 ≤ off.toNat ∧ off.toNat < 0x600) ∨ (0x10000 ≤ off.toNat ∧ off.toNat < 0x10000 + Config.bufBytes)) :
    (∃ k, regionOf off = .sbox k) ∨ (∃ k, regionOf off = .inv k) ∨ (∃ k, regionOf off = .buf k) := by
  obtain ⟨_, -⟩ | ⟨k, _, _, -⟩ | ⟨k, -, -, hr⟩ | ⟨k, -, -, hr⟩ | ⟨k, -, -, hr⟩ | ⟨_, -⟩ := regionOf_cases off
  · omega
  · omega
  · exact .inl ⟨k, hr⟩
  · exact .inr (.inl ⟨k, hr⟩)
  · exact .inr (.inr ⟨k, hr⟩)
  · omega

/-- Settles O43: the value is the packing of the next draw, which has the width of the read whatever its bytes are. -/
theorem busyArrayReadsAreDraws : Obligations.BusyArrayReadsAreDraws := by
  intro s rest n off hb ha range hin
  have inFlight : (s.thenTurns rest).busy = true := hb
  refine ⟨packLE n (Config.any s.draws), packLE_width n _, ?_⟩
  rw [step_readArray hin (by omega) ha, hostRead_busy inFlight (regionOf_table_or_buf range)]; rfl

/-! ## The frame of every read -/

theorem hostRead_frame (s : State) (n : Width) (off : BitVec 17) :
    s.hostRead n off = { s with rdata := (s.hostRead n off).rdata, draws := (s.hostRead n off).draws } := by
  obtain ⟨d, h⟩ | h := hostRead_shape s n off <;> rw [h] <;> rfl

/-- Settles O44: a read that is served answers with data or with a draw, and neither touches the block. -/
theorem readsChangeNoState : Obligations.ReadsChangeNoState := by
  intro s t rest n off hin hstep
  rw [step_cons hin] at hstep
  obtain ⟨-, ⟨n', off', hx, rfl⟩ | ⟨off', d, hx, -⟩⟩ := hostStep_next hstep
  · exact hostRead_frame (s.thenTurns rest) n' off'
  · cases hx

/-! ## The order of the bytes on the bus -/

theorem toNat_append_two (b0 b1 : Byte) : (b1 ++ b0).toNat = b0.toNat + 2 ^ 8 * b1.toNat := by
  rw [toNat_append_byte]; omega

theorem toNat_append_four (b0 b1 b2 b3 : Byte) :
    (b3 ++ b2 ++ b1 ++ b0).toNat = b0.toNat + 2 ^ 8 * b1.toNat + 2 ^ 16 * b2.toNat + 2 ^ 24 * b3.toNat := by
  simp only [toNat_append_byte]; omega

/-- Taking a value apart gives the bytes it was packed from (R57). -/
theorem bytes_packLE (n : Width) (b : Nat → Byte) : (packLE n b).bytes = (List.range n.bytes).map b := by
  have h0 := (b 0).isLt
  have h1 := (b 1).isLt
  have h2 := (b 2).isLt
  have h3 := (b 3).isLt
  cases n with
  | one => rfl
  | two =>
    have byte0 : (b 1 ++ b 0).extractLsb' 0 8 = b 0 := extract_byte (by rw [toNat_append_two]; omega)
    have byte1 : (b 1 ++ b 0).extractLsb' 8 8 = b 1 := extract_byte (by rw [toNat_append_two]; omega)
    rw [packLE, BusData.bytes, byte0, byte1]; rfl
  | four =>
    have byte0 : (b 3 ++ b 2 ++ b 1 ++ b 0).extractLsb' 0 8 = b 0 := extract_byte (by rw [toNat_append_four]; omega)
    have byte1 : (b 3 ++ b 2 ++ b 1 ++ b 0).extractLsb' 8 8 = b 1 := extract_byte (by rw [toNat_append_four]; omega)
    have byte2 : (b 3 ++ b 2 ++ b 1 ++ b 0).extractLsb' 16 8 = b 2 := extract_byte (by rw [toNat_append_four]; omega)
    have byte3 : (b 3 ++ b 2 ++ b 1 ++ b 0).extractLsb' 24 8 = b 3 := extract_byte (by rw [toNat_append_four]; omega)
    rw [packLE, BusData.bytes, byte0, byte1, byte2, byte3]; rfl

/-- Settles O42: a value narrower than a word keeps its number when it is widened to one. -/
theorem packingIsLittleEndian : Obligations.PackingIsLittleEndian := by
  intro b
  refine ⟨?_, ?_, toNat_append_four _ _ _ _, fun n => bytes_packLE n b⟩
  · exact BitVec.toNat_setWidth_of_le (by decide)
  · exact (BitVec.toNat_setWidth_of_le (by decide)).trans (toNat_append_two _ _)

end Sys2Proof.Proofs
end

section
/-! Reserved space and what is read-only (R58, R24, R25): reads of reserved space answer 0, and writes change nothing. -/

namespace Sys2Proof.Proofs

open Sys2Proof Sys2Proof.Machine

/-- The regions whose writes R58, R24 and R25 ignore. -/
def ignoresWrites : Region → Bool
  | .register .id | .register .seed | .register .cap | .register .pgenId => true
  | .register .ctrl | .register .status | .register .cmd | .register .len => false
  | .sbox _ | .inv _ | .reserved => true
  | .digest _ | .buf _ => false

/-- None of them is protected by the busy window (R189). -/
theorem frozen_of_ignoresWrites {region : Region} (h : ignoresWrites region = true) : region.frozen = false := by
  cases region with
  | register r =>
    cases r with
    | len => cases h
    | _ => rfl
  | digest k | buf k => cases h
  | sbox k | inv k | reserved => rfl

/-- Where writes are ignored the busy window records no error either. -/
theorem hostWrite_ignored {s : State} {off : BitVec 17} {d : BusData} (h : ignoresWrites (regionOf off) = true) :
    s.hostWrite off d = s := by
  rw [hostWrite_open (.inr (frozen_of_ignoresWrites h))]
  generalize regionOf off = region at h
  cases region with
  | register r =>
    cases r with
    | id | seed | cap | pgenId => rfl
    | ctrl | status | cmd | len => cases h
  | digest k | buf k => cases h
  | sbox k | inv k | reserved => rfl

theorem ignoresWrites_of_range {off : BitVec 17}
    (h : (0x40 ≤ off.toNat ∧ off.toNat < 0x10000) ∨ 0x10000 + Config.bufBytes ≤ off.toNat) :
    ignoresWrites (regionOf off) = true := by
  obtain ⟨_, -⟩ | ⟨k, _, _, -⟩ | ⟨k, -, -, hr⟩ | ⟨k, -, -, hr⟩ | ⟨k, _, _, -⟩ | ⟨-, hr⟩ := regionOf_cases off
  · omega
  · omega
  · rw [hr]; rfl
  · rw [hr]; rfl
  · omega
  · rw [hr]; rfl

theorem ignoresWrites_readOnlyRegister {off : BitVec 17}
    (h : off = 0x00000 ∨ off = 0x00014 ∨ off = 0x00018 ∨ off = 0x0001C) : ignoresWrites (regionOf off) = true := by
  obtain rfl | rfl | rfl | rfl := h
  · exact congrArg ignoresWrites (regionOf_registerOffset .id)
  · exact congrArg ignoresWrites (regionOf_registerOffset .seed)
  · exact congrArg ignoresWrites (regionOf_registerOffset .cap)
  · exact congrArg ignoresWrites (regionOf_registerOffset .pgenId)

/-- Settles O45: neither side asks for BUSY, since reserved space is no draw and what ignores writes is not protected. -/
theorem reservedAndReadOnlyIgnoreWrites : Obligations.ReservedAndReadOnlyIgnoreWrites := by
  intro s rest n off d
  refine ⟨fun range ha hin => ?_, fun place ha hin => ?_⟩
  · rw [step_readArray hin (by omega) ha, hostRead_reserved (regionOf_reserved range)]; rfl
  · obtain ⟨width, ignored⟩ : (off.toNat < 0x20 → d.width = .four) ∧ ignoresWrites (regionOf off) = true := by
      obtain tables | beyond | ⟨width, register⟩ := place
      · exact ⟨fun low => by omega, ignoresWrites_of_range (.inl tables)⟩
      · exact ⟨fun low => by omega, ignoresWrites_of_range (.inr beyond)⟩
      · exact ⟨fun _ => width, ignoresWrites_readOnlyRegister register⟩
    rw [step_write hin ha width, hostWrite_ignored ignored]

end Sys2Proof.Proofs
end

section
/-! Command words: decode and encode agree (R80, R85, R88), every word falls in one of three classes by its value (R83 to
R85), and a write of a command's word to CMD followed by CORE's turn is `RUN` (R89). -/

namespace Sys2Proof.Proofs

open Sys2Proof Sys2Proof.Machine

/-! ## Decode and encode -/

theorem decode_eq_command_iff {w : Word} {i : Instr} : decode w = .command i ↔ w = encode i :=
  ⟨decode_command_eq, fun h => h ▸ decode_of_encode i⟩

theorem commandOf_eq_some_iff {op : Byte} {i : Instr} : commandOf op = some i ↔ op = opcode i :=
  ⟨commandOf_some, fun h => h ▸ commandOf_opcode i⟩

theorem word_toNat (w : Word) : w.toNat = (rsvdField w).toNat * 2 ^ 8 + (opcField w).toNat := by
  rw [← toNat_append_byte, word_of_fields]

theorem rsvdField_encode (i : Instr) : rsvdField (encode i) = 0 := rsvdField_append _ _

theorem opcField_encode (i : Instr) : opcField (encode i) = opcode i := opcField_append _ _

theorem encode_toNat (i : Instr) : (encode i).toNat = (opcode i).toNat := by
  simp [word_toNat, rsvdField_encode, opcField_encode]

/-- The number of a command word is the word again (R86), so it decodes as the word does. -/
theorem decodeTableWord_encode (i : Instr) : decodeTableWord 32 (encode i).toNat = some i := by
  have inRange : 32 ≤ 32 ∧ (encode i).toNat < 2 ^ 32 := ⟨Nat.le_refl _, (encode i).isLt⟩
  rw [decodeTableWord, if_pos inRange, BitVec.ofNat_toNat, BitVec.setWidth_eq, decode_of_encode]

/-- Settles O2: the decoder picks the row whose word it is given, and the rows are the words of `encode`. -/
theorem decodeAndEncodeAgree : Obligations.DecodeAndEncodeAgree :=
  fun i _ _ => ⟨decode_eq_command_iff, commandOf_eq_some_iff, encode_toNat i, decodeTableWord_encode i⟩

/-! ## The three classes of words -/

theorem opcodeAssigned_iff (op : Byte) :
    opcodeAssigned op = true ↔ op.toNat ≤ 0x07 ∨ op.toNat = 0x10 ∨ op.toNat = 0x11 := by
  simp [opcodeAssigned, BitVec.toNat_eq, or_assoc]

theorem opcodeAssigned_opcode (i : Instr) : opcodeAssigned (opcode i) = true := by
  cases i <;> rfl

/-- Every assigned opcode stands in a row of R82. -/
theorem exists_opcode_of_assigned {op : Byte} (h : opcodeAssigned op = true) : ∃ i, op = opcode i := by
  suffices row : ∃ i, op.toNat = (opcode i).toNat from row.imp fun _ => BitVec.eq_of_toNat_eq
  obtain low | encodes | decodes := (opcodeAssigned_iff op).1 h
  · interval_cases op.toNat
    · exact ⟨.nop, rfl⟩
    · exact ⟨.buildSbox, rfl⟩
    · exact ⟨.ksXor, rfl⟩
    · exact ⟨.sub, rfl⟩
    · exact ⟨.invSub, rfl⟩
    · exact ⟨.rotl3, rfl⟩
    · exact ⟨.rotr3, rfl⟩
    · exact ⟨.reverse, rfl⟩
  · exact ⟨.encode, encodes⟩
  · exact ⟨.decode, decodes⟩

theorem wellFormedWord_iff_fields (w : Word) :
    wellFormedWord w = true ↔ rsvdField w = 0 ∧ opcodeAssigned (opcField w) = true := by
  rw [wellFormedWord, Bool.and_eq_true, beq_iff_eq]

theorem rsvdField_eq_zero_iff (w : Word) : rsvdField w = 0 ↔ w.toNat < 0x100 := by
  have value := word_toNat w
  have opc := (opcField w).isLt
  simp only [BitVec.toNat_eq, BitVec.ofNat_eq_ofNat, BitVec.toNat_zero]
  omega

/-- With RSVD = 0 the value of the word is that of its OPC. -/
theorem wellFormedWord_iff_toNat (w : Word) :
    wellFormedWord w = true ↔ w.toNat ≤ 0x07 ∨ w.toNat = 0x10 ∨ w.toNat = 0x11 := by
  have value := word_toNat w
  have opc := (opcField w).isLt
  rw [wellFormedWord_iff_fields, rsvdField_eq_zero_iff, opcodeAssigned_iff]
  omega

theorem exists_decode_eq_command_iff (w : Word) : (∃ i, decode w = .command i) ↔ wellFormedWord w = true := by
  rw [wellFormedWord_iff_fields]
  constructor
  · rintro ⟨i, hi⟩
    rw [decode_eq_command_iff.1 hi, rsvdField_encode, opcField_encode]
    exact ⟨rfl, opcodeAssigned_opcode i⟩
  · rintro ⟨rsvdZero, assigned⟩
    obtain ⟨i, hi⟩ := exists_opcode_of_assigned assigned
    have word : w = encode i := by rw [← word_of_fields w, rsvdZero, hi]; rfl
    exact ⟨i, decode_eq_command_iff.2 word⟩

theorem decode_eq_rsvd_iff (w : Word) : decode w = .rsvd ↔ 0x100 ≤ w.toNat := by
  have rsvd : decode w = .rsvd ↔ rsvdField w ≠ 0 := ⟨fun h rsvdZero => decode_not_rsvd rsvdZero h, decode_rsvd⟩
  rw [rsvd, Ne, rsvdField_eq_zero_iff, Nat.not_lt]

/-- Illegal is what the other two classes leave over (R85). -/
theorem eq_illegal_iff (c : Decoded) : c = .illegal ↔ c ≠ .rsvd ∧ ¬ ∃ i, c = .command i := by
  cases c <;> simp

theorem decode_eq_illegal_iff (w : Word) : decode w = .illegal ↔
    (0x08 ≤ w.toNat ∧ w.toNat ≤ 0x0F) ∨ (0x12 ≤ w.toNat ∧ w.toNat ≤ 0xFF) := by
  rw [eq_illegal_iff, Ne, decode_eq_rsvd_iff, exists_decode_eq_command_iff, wellFormedWord_iff_toNat]
  omega

/-- Settles O3: RSVD is zero below 0x100, and illegal is what is left there by the well-formed words. -/
theorem everyWordFallsInOneClass : Obligations.EveryWordFallsInOneClass :=
  fun w => ⟨decode_eq_rsvd_iff w, decode_eq_illegal_iff w, exists_decode_eq_command_iff w⟩

/-! ## Sample words -/

/-- Settles O1: the six command words are words of `encode`, and the value of each of the others tells its class. -/
theorem sampleWordsDecode : Obligations.SampleWordsDecode :=
  ⟨decode_of_encode .nop, decode_of_encode .buildSbox, decode_of_encode .invSub, decode_of_encode .reverse,
    decode_of_encode .encode, decode_of_encode .decode, (decode_eq_illegal_iff _).2 (by decide),
    (decode_eq_illegal_iff _).2 (by decide), (decode_eq_rsvd_iff _).2 (by decide), (decode_eq_rsvd_iff _).2 (by decide)⟩

/-! ## A write to CMD and CORE's turn -/

theorem step_asmCmd {s : State} {i : Instr} {rest : List Event} (h : s.inbox = .host (asmCmd i) :: rest) :
    step s = .next (issue (encode i) (s.thenTurns rest)) :=
  step_writeReg (r := .cmd) h (by decide) (by decide) rfl (by decide)

/-- Settles O7: the issue procedure leaves the turns to come as they are, so the next turn is CORE's. -/
theorem commandWriteThenCoreTurn : Obligations.CommandWriteThenCoreTurn := by
  intro s i rest hin
  have coreNext : (issue (encode i) (s.thenTurns (.core :: rest))).inbox = .core :: rest := by
    rw [issue_thenTurns]; rfl
  refine ⟨_, step_asmCmd hin, rfl, ?_⟩
  rw [step_core coreNext, ← issue_thenTurns]
  rfl

end Sys2Proof.Proofs
end

section
/-! The keystream (R102, R103) and the seed (R100): what both read off the digest. -/

namespace Sys2Proof.Proofs

open Sys2Proof Sys2Proof.Machine

/-! ## The keystream -/

theorem digestAt_congr (D : Vector Byte 32) {j k : Nat} (h : j % 32 = k % 32) : digestAt D j = digestAt D k := by
  rw [← digestAt_mod, h, digestAt_mod]

/-- Both indices of a keystream byte go once round the digest, 7 times and 3 times, in 32 steps. -/
theorem ks_add_32 (D : Vector Byte 32) (i : Nat) : ks D (i + 32) = ks D i := by
  have seven : digestAt D ((i + 32) * 7) = digestAt D (i * 7) := digestAt_congr D (by omega)
  have three : digestAt D ((i + 32) * 3) = digestAt D (i * 3) := digestAt_congr D (by omega)
  rw [ks_eq, ks_eq, seven, three]

theorem ks_eq_zero_of_digestAt_eq {D : Vector Byte 32} {i : Nat} (h : digestAt D (i * 7) = digestAt D (i * 3)) :
    ks D i = 0 := by
  rw [ks_eq, h]
  exact BitVec.xor_self

/-- The two indices are 4i apart, a multiple of 32 when 8 divides i. -/
theorem ks_eq_zero_of_mod_eight (D : Vector Byte 32) {i : Nat} (h : i % 8 = 0) : ks D i = 0 :=
  ks_eq_zero_of_digestAt_eq (digestAt_congr D (by omega))

theorem ks_of_counting_digest {D : Vector Byte 32} (h : ∀ k, k < 32 → digestAt D k = BitVec.ofNat 8 k) (i : Nat) :
    ks D i = BitVec.ofNat 8 ((7 * i) % 32) ^^^ BitVec.ofNat 8 ((3 * i) % 32) := by
  rw [ks, Nat.mul_comm i 7, Nat.mul_comm i 3, h _ (by omega), h _ (by omega)]

theorem keystream_length (D : Vector Byte 32) (n : Nat) : (keystream D n).length = n := by
  simp [keystream]

theorem keystream_add (D : Vector Byte 32) (n k : Nat) :
    keystream D (n + k) = keystream D n ++ (List.range k).map fun j => ks D (n + j) := by
  simp [keystream, List.range_add, Function.comp_def]

theorem keystream_isPrefix (D : Vector Byte 32) {n m : Nat} (h : n ≤ m) : keystream D n <+: keystream D m := by
  obtain ⟨k, rfl⟩ := Nat.exists_eq_add_of_le h
  exact ⟨_, (keystream_add D n k).symm⟩

/-- Settles O23: the digest is read at indices mod 32, and a longer keystream continues a shorter one. -/
theorem keystreamLaws : Obligations.KeystreamLaws :=
  fun D i n _ => ⟨ks_add_32 D i, ks_eq_zero_of_mod_eight D, fun equal => ks_eq_zero_of_digestAt_eq (equal _ _),
    fun counts => ks_of_counting_digest counts i, keystream_length D n, keystream_isPrefix D⟩

/-! ## The seed -/

theorem be32_toNat (b0 b1 b2 b3 : Byte) :
    (be32 b0 b1 b2 b3).toNat = b0.toNat * 2 ^ 24 + b1.toNat * 2 ^ 16 + b2.toNat * 2 ^ 8 + b3.toNat := by
  rw [be32, toNat_append_four]
  omega

/-- Settles O24: `be32` is the big-endian number of its bytes. -/
theorem seedIsBigEndian : Obligations.SeedIsBigEndian :=
  fun _ => ⟨be32_toNat _ _ _ _, rfl⟩

/-- No digest byte beyond the fourth is in the seed. -/
theorem seedOf_congr {D D' : Vector Byte 32} (h : ∀ k, k < 4 → digestAt D k = digestAt D' k) : seedOf D = seedOf D' := by
  rw [seedOf, h 0 (by decide), h 1 (by decide), h 2 (by decide), h 3 (by decide), seedOf]

end Sys2Proof.Proofs
end

section
/-! The substitution-table builder: the generators (R104, R110) and the bounded draws of the CPY profile (R115), and the
tables that BUILD_SBOX, ENCODE and DECODE leave (R105 to R108). -/

namespace Sys2Proof.Proofs

open Sys2Proof Sys2Proof.Machine

/-! ## The generators -/

/-- Settles O25: an injective table on the 256 bytes is a bijection. -/
theorem generatorsGivePermutations : Obligations.GeneratorsGivePermutations :=
  fun g seed v => (Finite.injective_iff_bijective.1 (generator_table_injective g seed)).existsUnique v

/-- Settles O27: by induction on the fuel, since only a draw below the bound ends the loop. -/
theorem boundedDrawIsBelow : Obligations.BoundedDrawIsBelow := by
  intro fuel n r g g' h
  induction fuel generalizing g with
  | zero => cases h
  | succ fuel ih =>
    simp only [randBelow] at h
    split at h
    next rejected => exact ih _ h
    next accepted =>
      have drawn : getRandBits g (bitLength n) = (r, g') := Option.some.inj h
      rw [drawn] at accepted
      exact Nat.lt_of_not_le accepted

/-! ## What a building command leaves -/

theorem buildsTables_of_mem {i : Instr} (h : i = .buildSbox ∨ i = .encode ∨ i = .decode) : buildsTables i = true := by
  obtain rfl | rfl | rfl := h <;> rfl

/-- The tables are those of the digest the command finds, which it keeps (R108). -/
theorem exec_builds_tables {i : Instr} (s : State) (hi : buildsTables i = true) :
    ∃ t, exec i s = .next t ∧ t.sboxValid = true ∧ t.sbox = (buildTables (seedOf s.digest)).1 ∧
      t.inv = (buildTables (seedOf s.digest)).2 := by
  obtain ⟨f, h⟩ := exec_shape i s
  refine ⟨_, h, ?_, ?_, ?_⟩
  · rw [State.complete_sboxValid, CoreEffect_sboxValid, hi, Bool.true_or]
  · rw [State.complete_sbox, CoreEffect_sbox, if_pos hi]
  · rw [State.complete_inv, CoreEffect_inv, if_pos hi]

/-- Settles O28: the tables of a build undo each other for every seed. -/
theorem builtTablesAreInverse : Obligations.BuiltTablesAreInverse := by
  intro i s hi
  obtain ⟨t, ht, valid, sbox, inv⟩ := exec_builds_tables s (buildsTables_of_mem hi)
  refine ⟨t, ht, valid, ?_⟩
  rw [sbox, inv]
  exact buildTables_inverse (seedOf s.digest)

/-- Settles O29: digests that agree on bytes 0 to 3 have one seed, and the seed decides the tables. -/
theorem buildersLeaveTheSameTables : Obligations.BuildersLeaveTheSameTables := by
  intro i j s s' hi hj agree
  obtain ⟨t, ht, -, sbox, inv⟩ := exec_builds_tables s (buildsTables_of_mem hi)
  obtain ⟨t', ht', -, sbox', inv'⟩ := exec_builds_tables s' (buildsTables_of_mem hj)
  rw [← seedOf_congr agree] at sbox' inv'
  exact ⟨t, t', ht, ht', sbox, inv, sbox'.trans sbox.symm, inv'.trans inv.symm⟩

/-! ## BUILD_SBOX -/

theorem exec_sameButBufTables {i : Instr} {s t : State} (h : exec i s = .next t) : SameButBufTables s t := by
  obtain ⟨f, rfl⟩ := exec_next h
  simp [SameButBufTables]

theorem exec_sameHostSide {i : Instr} {s t : State} (h : exec i s = .next t) : SameHostSide s t := by
  obtain ⟨f, rfl⟩ := exec_next h
  simp [SameHostSide]

theorem exec_sameBuf_of_not_usesLen {i : Instr} {s t : State} (hi : usesLen i = false) (h : exec i s = .next t) :
    SameBuf s t := by
  obtain ⟨f, rfl⟩ := exec_next h
  intro k
  rw [State.bufByte_complete, CoreEffect_bufByte, hi, if_neg (by simp)]

/-- Settles O17: BUILD_SBOX builds the tables and rewrites no byte of BUF. -/
theorem buildSboxResult : Obligations.BuildSboxResult := by
  intro s
  obtain ⟨t, ht, valid, sbox, inv⟩ := exec_builds_tables s (i := .buildSbox) rfl
  refine ⟨t, ht, exec_completed ht, exec_sameButBufTables ht, exec_sameHostSide ht, exec_sameBuf_of_not_usesLen rfl ht,
    valid, sbox, ?_⟩
  rw [sbox, inv]
  exact (buildTables_inverse (seedOf s.digest)).1

end Sys2Proof.Proofs
end

section
/-! NOP and the stage commands (R130 to R138): what each stage makes of the bytes of BUF, that a stage run through CMD does
just that, and then the laws of R138 as equations between functions on the bytes of BUF. -/

namespace Sys2Proof.Proofs

open Sys2Proof Sys2Proof.Machine

/-! ## NOP -/

/-- Settles O10: NOP's meaning is completion alone. -/
theorem nopOnlyCompletes : Obligations.NopOnlyCompletes :=
  fun _ => rfl

/-! ## What a stage makes of BUF -/

/-- The commands under the common frame of R130: they use LEN and build no tables. -/
def isStage (i : Instr) : Bool := usesLen i && !buildsTables i

/-- The byte that stage `i` writes at index `k` when BUF holds `b`, with the digest, tables and LEN of `s` (R132 to R137). A
command that is no stage is given `b k`. -/
def stageByte (i : Instr) (s : State) (b : Nat → Byte) (k : Nat) : Byte :=
  match i with
  | .nop => b k
  | .buildSbox => b k
  | .ksXor => b k ^^^ ks s.digest k
  | .sub => lookup s.sbox (b k)
  | .invSub => lookup s.inv (b k)
  | .rotl3 => rotl3 (b k)
  | .rotr3 => rotr3 (b k)
  | .reverse => b (s.count - 1 - k)
  | .encode => b k
  | .decode => b k

/-- The bytes of BUF after stage `i` when they were `b` before: those at or beyond LEN stay (R130). -/
def stageBuf (i : Instr) (s : State) (b : Nat → Byte) (k : Nat) : Byte :=
  if k < s.count then stageByte i s b k else b k

theorem stageBuf_of_lt {i : Instr} {s : State} {b : Nat → Byte} {k : Nat} (hk : k < s.count) :
    stageBuf i s b k = stageByte i s b k :=
  if_pos hk

theorem stageBuf_of_le {i : Instr} {s : State} {b : Nat → Byte} {k : Nat} (hk : s.count ≤ k) : stageBuf i s b k = b k :=
  if_neg (Nat.not_lt_of_le hk)

/-! ## One CORE step of a stage -/

theorem exec_eq_rewrite {i : Instr} (hi : isStage i = true) (s : State) :
    exec i s = .next (s.rewrite s.count (stageByte i s s.bufByte)).complete := by
  cases i
  case ksXor => exact exec_ksXor s
  case sub => exact exec_sub s
  case invSub => exact exec_invSub s
  case rotl3 => exact exec_rotl3 s
  case rotr3 => exact exec_rotr3 s
  case reverse => exact exec_reverse s
  all_goals cases hi

theorem rewrite_complete_sameButBuf (s : State) (n : Nat) (f : Nat → Byte) : SameButBuf s (s.rewrite n f).complete := by
  simp [SameButBuf]

/-- What a stage in flight does, said once (R130): result, completion and frame. -/
theorem exec_stage {i : Instr} (hi : isStage i = true) (s : State) :
    ∃ t, exec i s = .next t ∧ Completed t ∧ SameButBuf s t ∧ SameHostSide s t ∧
      ∀ k, t.bufByte k = stageBuf i s s.bufByte k := by
  have h := exec_eq_rewrite hi s
  exact ⟨_, h, exec_completed h, rewrite_complete_sameButBuf s _ _, exec_sameHostSide h, State.bufByte_rewrite s _ _⟩

/-- Settles O11: `stageByte .ksXor` is the XOR of R132. -/
theorem ksXorResult : Obligations.KsXorResult :=
  exec_stage (i := .ksXor) rfl

/-- Settles O12: `stageByte .sub` is the table entry of R133. -/
theorem subResult : Obligations.SubResult :=
  exec_stage (i := .sub) rfl

/-- Settles O13: `stageByte .invSub` is the table entry of R134. -/
theorem invSubResult : Obligations.InvSubResult :=
  exec_stage (i := .invSub) rfl

/-! ## The rotations, bit by bit -/

/-- The mask 0xFF of R135 and R136 drops no bit of a byte. -/
theorem getLsbD_ofNat_and_mask (x : Nat) {k : Nat} (hk : k < 8) : (BitVec.ofNat 8 (x &&& 0xFF)).getLsbD k = x.testBit k := by
  rw [BitVec.getLsbD_ofNat, Nat.testBit_and, show 0xFF = 2 ^ 8 - 1 from rfl, Nat.testBit_two_pow_sub_one]
  simp [hk]

theorem rotl3_getLsbD (b : Byte) {k : Nat} (hk : k < 8) : (rotl3 b).getLsbD k = b.getLsbD ((k + 5) % 8) := by
  rw [rotl3, getLsbD_ofNat_and_mask _ hk, Nat.testBit_or, Nat.testBit_shiftLeft, Nat.testBit_shiftRight,
    BitVec.testBit_toNat, BitVec.testBit_toNat]
  by_cases low : k < 3
  · rw [show (k + 5) % 8 = 5 + k by omega]
    simp [show ¬ 3 ≤ k by omega]
  · rw [show (k + 5) % 8 = k - 3 by omega, BitVec.getLsbD_of_ge b (5 + k) (by omega)]
    simp [show 3 ≤ k by omega]

theorem rotr3_getLsbD (b : Byte) {k : Nat} (hk : k < 8) : (rotr3 b).getLsbD k = b.getLsbD ((k + 3) % 8) := by
  rw [rotr3, getLsbD_ofNat_and_mask _ hk, Nat.testBit_or, Nat.testBit_shiftLeft, Nat.testBit_shiftRight,
    BitVec.testBit_toNat, BitVec.testBit_toNat]
  by_cases low : k < 5
  · rw [show (k + 3) % 8 = 3 + k by omega]
    simp [show ¬ 5 ≤ k by omega]
  · rw [show (k + 3) % 8 = k - 5 by omega, BitVec.getLsbD_of_ge b (3 + k) (by omega)]
    simp [show 5 ≤ k by omega]

/-- Settles O14: `rotl3` bit by bit. -/
theorem rotl3Result : Obligations.Rotl3Result := by
  intro s
  obtain ⟨t, ht, done, frame, host, bytes⟩ := exec_stage (i := .rotl3) rfl s
  refine ⟨t, ht, done, frame, host, fun i hi => (bytes i).trans (stageBuf_of_le hi), fun i k hi hk => ?_⟩
  rw [bytes i, stageBuf_of_lt hi]
  exact rotl3_getLsbD _ hk

/-- Settles O15: `rotr3` bit by bit. -/
theorem rotr3Result : Obligations.Rotr3Result := by
  intro s
  obtain ⟨t, ht, done, frame, host, bytes⟩ := exec_stage (i := .rotr3) rfl s
  refine ⟨t, ht, done, frame, host, fun i hi => (bytes i).trans (stageBuf_of_le hi), fun i k hi hk => ?_⟩
  rw [bytes i, stageBuf_of_lt hi]
  exact rotr3_getLsbD _ hk

/-! ## The reversal -/

theorem stageBuf_reverse {s : State} {j k : Nat} (b : Nat → Byte) (h : k + j + 1 = s.count) :
    stageBuf .reverse s b k = b j := by
  rw [stageBuf_of_lt (by omega), stageByte, show s.count - 1 - k = j by omega]

/-- Settles O16: the two indices of a reversal add up to LEN - 1. -/
theorem reverseResult : Obligations.ReverseResult := by
  intro s
  obtain ⟨t, ht, done, frame, host, bytes⟩ := exec_stage (i := .reverse) rfl s
  exact ⟨t, ht, done, frame, host, fun i hi => (bytes i).trans (stageBuf_of_le hi),
    fun i j h => (bytes i).trans (stageBuf_reverse s.bufByte h)⟩

/-! ## Stages run through CMD -/

/-- `SameButBuf` less PENDING, which every RUN sets (R183). -/
def SameButBufPending (s t : State) : Prop := SameButBuf s { t with pending := s.pending }

theorem accept_sameButBufPending (s : State) (op : Byte) : SameButBufPending s (s.accept op) := by
  simp [SameButBufPending, SameButBuf]

theorem sameButBufPending_of_sameButBuf {s t : State} (h : SameButBuf s t) : SameButBufPending s t := by
  obtain ⟨digest, sbox, inv, valid, len, irqEn, err, errcode, -⟩ := h
  exact ⟨digest, sbox, inv, valid, len, irqEn, err, errcode, rfl⟩

theorem SameButBufPending.trans {s t u : State} (h : SameButBufPending s t) (h' : SameButBufPending t u) :
    SameButBufPending s u := by
  obtain ⟨digest, sbox, inv, valid, len, irqEn, err, errcode, -⟩ := h
  obtain ⟨digest', sbox', inv', valid', len', irqEn', err', errcode', -⟩ := h'
  exact ⟨digest'.trans digest, sbox'.trans sbox, inv'.trans inv, valid'.trans valid, len'.trans len, irqEn'.trans irqEn,
    err'.trans err, errcode'.trans errcode, rfl⟩

theorem SameButBufPending.count_eq {s t : State} (h : SameButBufPending s t) : t.count = s.count := by
  obtain ⟨-, -, -, -, len, -⟩ := h
  exact congrArg BitVec.toNat len

theorem SameButBufPending.sboxValid_eq {s t : State} (h : SameButBufPending s t) : t.sboxValid = s.sboxValid := by
  obtain ⟨-, -, -, valid, -⟩ := h
  exact valid

/-- A stage reads nothing but DIGEST, SBOX, INV, LEN and the bytes of BUF. -/
theorem SameButBufPending.stageBuf_eq {s t : State} (h : SameButBufPending s t) (i : Instr) : stageBuf i t = stageBuf i s := by
  have count := h.count_eq
  obtain ⟨digest, sbox, inv, -⟩ := h
  dsimp only at digest sbox inv
  funext b k
  cases i <;> simp only [stageBuf, stageByte, digest, sbox, inv, count]

/-- A stage from an idle block that passes the checks of R183. -/
theorem runCommand_stage {i : Instr} {s : State} (hi : isStage i = true) (idle : s.busy = false)
    (fits : s.count ≤ Config.bufBytes) (valid : needsTables i = true → s.sboxValid = true) :
    ∃ t, runCommand i s = .next t ∧ Completed t ∧ SameButBufPending s t ∧ t.bufByte = stageBuf i s s.bufByte := by
  obtain ⟨t, ht, done, frame, -, bytes⟩ := exec_stage hi (s.accept (opcode i))
  have accepted := accept_sameButBufPending s (opcode i)
  refine ⟨t, (runCommand_inRange idle fits valid).trans ht, done,
    accepted.trans (sameButBufPending_of_sameButBuf frame), funext fun k => ?_⟩
  rw [bytes k, accepted.stageBuf_eq]
  rfl

/-- The bytes of BUF after two stages are the two `stageBuf` applied one after the other. -/
theorem runAll_two_stages {i j : Instr} {s : State} (hi : isStage i = true) (hj : isStage j = true) (idle : s.busy = false)
    (fits : s.count ≤ Config.bufBytes) (validI : needsTables i = true → s.sboxValid = true)
    (validJ : needsTables j = true → s.sboxValid = true) :
    ∃ t, runAll [i, j] s = .next t ∧ Completed t ∧ SameButBufPending s t ∧
      t.bufByte = stageBuf j s (stageBuf i s s.bufByte) := by
  obtain ⟨m, hm, doneM, frameM, bytesM⟩ := runCommand_stage hi idle fits validI
  obtain ⟨t, ht, doneT, frameT, bytesT⟩ :=
    runCommand_stage hj doneM.1 (frameM.count_eq.trans_le fits) fun h => frameM.sboxValid_eq.trans (validJ h)
  refine ⟨t, ?_, doneT, frameM.trans frameT, ?_⟩
  · rw [runAll_cons hm, runAll_cons ht, runAll_nil]
  · rw [bytesT, bytesM, frameM.stageBuf_eq]

/-! ## Stages that undo each other (R138 items 1 to 4) -/

section
variable (s : State) (b : Nat → Byte)

/-- It is enough to look below LEN. -/
theorem stageBuf_undo {i j : Instr} (h : ∀ k, k < s.count → stageByte j s (stageBuf i s b) k = b k) :
    stageBuf j s (stageBuf i s b) = b := by
  funext k
  by_cases hk : k < s.count
  · rw [stageBuf_of_lt hk, h k hk]
  · rw [stageBuf_of_le (by omega), stageBuf_of_le (by omega)]

theorem stageBuf_rotr3_rotl3 : stageBuf .rotr3 s (stageBuf .rotl3 s b) = b :=
  stageBuf_undo s b fun k hk => by rw [stageByte, stageBuf_of_lt hk, stageByte, rotr3_rotl3]

theorem stageBuf_rotl3_rotr3 : stageBuf .rotl3 s (stageBuf .rotr3 s b) = b :=
  stageBuf_undo s b fun k hk => by rw [stageByte, stageBuf_of_lt hk, stageByte, rotl3_rotr3]

theorem stageBuf_ksXor_ksXor : stageBuf .ksXor s (stageBuf .ksXor s b) = b :=
  stageBuf_undo s b fun k hk => by rw [stageByte, stageBuf_of_lt hk, stageByte, xor_xor_byte]

theorem stageBuf_reverse_reverse : stageBuf .reverse s (stageBuf .reverse s b) = b :=
  stageBuf_undo s b fun k hk => by rw [stageByte, stageBuf_reverse b (by omega : _ + k + 1 = _)]

theorem stageBuf_invSub_sub (h : Inverse s.sbox s.inv) : stageBuf .invSub s (stageBuf .sub s b) = b :=
  stageBuf_undo s b fun k hk => by rw [stageByte, stageBuf_of_lt hk, stageByte, h.1]

theorem stageBuf_sub_invSub (h : Inverse s.sbox s.inv) : stageBuf .sub s (stageBuf .invSub s b) = b :=
  stageBuf_undo s b fun k hk => by rw [stageByte, stageBuf_of_lt hk, stageByte, h.2]

end

/-- Two stages of which the second undoes the first, run through CMD, restore BUF. -/
theorem runAll_restores {i j : Instr} {s : State} (hi : isStage i = true) (hj : isStage j = true) (idle : s.busy = false)
    (fits : s.count ≤ Config.bufBytes) (validI : needsTables i = true → s.sboxValid = true)
    (validJ : needsTables j = true → s.sboxValid = true) (undo : stageBuf j s (stageBuf i s s.bufByte) = s.bufByte) :
    ∃ t, runAll [i, j] s = .next t ∧ Completed t ∧ SameBuf s t ∧ SameButBuf s { t with pending := s.pending } := by
  obtain ⟨t, ht, done, frame, bytes⟩ := runAll_two_stages hi hj idle fits validI validJ
  exact ⟨t, ht, done, congrFun (bytes.trans undo), frame⟩

/-- Settles O30: in each of the six pairs the second stage undoes the first, byte by byte or, for REVERSE, index by index. -/
theorem stagesUndoEachOther : Obligations.StagesUndoEachOther := by
  rintro s idle fits is (rfl | rfl | rfl | rfl | ⟨valid, inverse, rfl | rfl⟩)
  · exact runAll_restores rfl rfl idle fits nofun nofun (stageBuf_rotr3_rotl3 s _)
  · exact runAll_restores rfl rfl idle fits nofun nofun (stageBuf_rotl3_rotr3 s _)
  · exact runAll_restores rfl rfl idle fits nofun nofun (stageBuf_ksXor_ksXor s _)
  · exact runAll_restores rfl rfl idle fits nofun nofun (stageBuf_reverse_reverse s _)
  · exact runAll_restores rfl rfl idle fits (fun _ => valid) (fun _ => valid) (stageBuf_invSub_sub s _ inverse)
  · exact runAll_restores rfl rfl idle fits (fun _ => valid) (fun _ => valid) (stageBuf_sub_invSub s _ inverse)

/-! ## Stages and the reversal (R138 items 5 and 6) -/

/-- The stages that "act on each byte regardless of its index" (R138 item 5). -/
theorem stageByte_regardless_of_index {i : Instr} (hi : i = .sub ∨ i = .invSub ∨ i = .rotl3 ∨ i = .rotr3) (s : State) :
    ∃ g : Byte → Byte, ∀ b k, stageByte i s b k = g (b k) := by
  obtain rfl | rfl | rfl | rfl := hi
  · exact ⟨lookup s.sbox, fun _ _ => rfl⟩
  · exact ⟨lookup s.inv, fun _ _ => rfl⟩
  · exact ⟨rotl3, fun _ _ => rfl⟩
  · exact ⟨rotr3, fun _ _ => rfl⟩

theorem stageBuf_reverse_comm {i : Instr} {s : State} {g : Byte → Byte} (hg : ∀ b k, stageByte i s b k = g (b k))
    (b : Nat → Byte) : stageBuf i s (stageBuf .reverse s b) = stageBuf .reverse s (stageBuf i s b) := by
  funext k
  by_cases hk : k < s.count
  · have mirror : k + (s.count - 1 - k) + 1 = s.count := by omega
    rw [stageBuf_of_lt hk, hg, stageBuf_reverse _ mirror, stageBuf_reverse _ mirror, stageBuf_of_lt (by omega), hg]
  · have outside : s.count ≤ k := by omega
    simp only [stageBuf_of_le outside]

/-- With two keystream bytes that differ at mirrored indices, byte `k` shows which of the two stages came first. -/
theorem stageBuf_ksXor_reverse_ne {s : State} {j k : Nat} (mirror : k + j + 1 = s.count) (h : ks s.digest k ≠ ks s.digest j)
    (b : Nat → Byte) : stageBuf .ksXor s (stageBuf .reverse s b) k ≠ stageBuf .reverse s (stageBuf .ksXor s b) k := by
  rw [stageBuf_of_lt (by omega), stageByte, stageBuf_reverse b mirror, stageBuf_reverse _ mirror, stageBuf_of_lt (by omega),
    stageByte]
  exact fun e => h (BitVec.xor_right_inj _ |>.1 e)

/-- Run through CMD before or after REVERSE, a stage that acts on each byte regardless of its index leaves one and the same
BUF. -/
theorem runAll_reverse_comm {s : State} {i : Instr} (idle : s.busy = false) (fits : s.count ≤ Config.bufBytes)
    (valid : needsTables i = true → s.sboxValid = true) (hi : i = .sub ∨ i = .invSub ∨ i = .rotl3 ∨ i = .rotr3) :
    ∃ t t', runAll [i, .reverse] s = .next t ∧ runAll [.reverse, i] s = .next t' ∧ SameBuf t t' := by
  have stage : isStage i = true := by obtain rfl | rfl | rfl | rfl := hi <;> rfl
  obtain ⟨g, hg⟩ := stageByte_regardless_of_index hi s
  obtain ⟨t, ht, -, -, bytes⟩ := runAll_two_stages (j := .reverse) stage rfl idle fits valid nofun
  obtain ⟨t', ht', -, -, bytes'⟩ := runAll_two_stages (i := .reverse) rfl stage idle fits nofun valid
  refine ⟨t, t', ht, ht', congrFun ?_⟩
  rw [bytes', bytes, stageBuf_reverse_comm hg]

/-- The block of 95_test_vectors.md section 8 item 4: DIGEST[k] = k, LEN = 2, BUF = 00 00. -/
def twoZeroBytes : State :=
  { State.reset with digest := Vector.ofFn fun k => BitVec.ofNat 8 k.val, buf := [(0, 0), (1, 0)], len := 2 }

/-- Byte 0 of `twoZeroBytes` meets keystream byte 1 (04) when KS_XOR comes first, and keystream byte 0 (00) when it comes
last. -/
theorem runAll_ksXor_reverse_not_comm :
    ∃ s t t' : State, s.busy = false ∧ s.len.toNat ≤ Config.bufBytes ∧
      runAll [.ksXor, .reverse] s = .next t ∧ runAll [.reverse, .ksXor] s = .next t' ∧ ¬ SameBuf t t' := by
  have idle : twoZeroBytes.busy = false := rfl
  have fits : twoZeroBytes.count ≤ Config.bufBytes := Nat.le_trans (by decide : 2 ≤ 4) bufBytes_pos
  have differ : ks twoZeroBytes.digest 0 ≠ ks twoZeroBytes.digest 1 := by decide
  obtain ⟨t, ht, -, -, bytes⟩ := runAll_two_stages (i := .ksXor) (j := .reverse) rfl rfl idle fits nofun nofun
  obtain ⟨t', ht', -, -, bytes'⟩ := runAll_two_stages (i := .reverse) (j := .ksXor) rfl rfl idle fits nofun nofun
  refine ⟨twoZeroBytes, t, t', idle, fits, ht, ht', fun same => ?_⟩
  apply stageBuf_ksXor_reverse_ne (s := twoZeroBytes) (k := 0) (j := 1) rfl differ twoZeroBytes.bufByte
  rw [← bytes', ← bytes, same 0]

/-- Settles O31: a stage that ignores the index commutes with REVERSE, and KS_XOR, which reads it, does not. -/
theorem byteStagesCommuteWithReverse : Obligations.ByteStagesCommuteWithReverse :=
  ⟨fun _ _ => runAll_reverse_comm, runAll_ksXor_reverse_not_comm⟩

end Sys2Proof.Proofs
end

section
/-! The encode/decode pipeline (R160 to R168): ENCODE and DECODE as their single stages on built tables (R165), and from
that what each leaves, that they undo each other, and what ENCODE reads of the digest. -/

namespace Sys2Proof.Proofs

open Sys2Proof Sys2Proof.Machine

/-! ## Several stages in a row -/

/-- The bytes of BUF after the stages `is`, one after another, when they were `b` before. -/
def stagesBuf (is : List Instr) (s : State) (b : Nat → Byte) : Nat → Byte :=
  match is with
  | [] => b
  | i :: rest => stagesBuf rest s (stageBuf i s b)

theorem SameButBufPending.stagesBuf_eq {s t : State} (h : SameButBufPending s t) (is : List Instr) :
    stagesBuf is t = stagesBuf is s := by
  induction is with
  | nil => rfl
  | cons i rest ih =>
    funext b
    rw [stagesBuf, ih, h.stageBuf_eq, stagesBuf]

/-- The stages `is`, run through CMD on an idle block with valid tables. -/
theorem runAll_stages {is : List Instr} {s : State} (stages : ∀ i ∈ is, isStage i = true) (idle : Completed s)
    (fits : s.count ≤ Config.bufBytes) (valid : s.sboxValid = true) :
    ∃ t, runAll is s = .next t ∧ Completed t ∧ SameButBufPending s t ∧ t.bufByte = stagesBuf is s s.bufByte := by
  induction is generalizing s with
  | nil => exact ⟨s, runAll_nil s, idle, by simp [SameButBufPending, SameButBuf], rfl⟩
  | cons i rest ih =>
    obtain ⟨stage, stages⟩ := List.forall_mem_cons.1 stages
    obtain ⟨m, hm, doneM, frameM, bytesM⟩ := runCommand_stage stage idle.1 fits fun _ => valid
    obtain ⟨t, ht, doneT, frameT, bytesT⟩ :=
      ih stages doneM (frameM.count_eq.trans_le fits) (frameM.sboxValid_eq.trans valid)
    refine ⟨t, (runAll_cons hm).trans ht, doneT, frameM.trans frameT, ?_⟩
    rw [bytesT, bytesM, frameM.stagesBuf_eq, stagesBuf]

/-! ## The stages of the pipeline -/

/-- The commands of the pipeline controller: they use LEN and build tables. -/
def isPipeline (i : Instr) : Bool := usesLen i && buildsTables i

/-- They build the tables they use (R160, R161), so they need no valid ones (R82). -/
theorem needsTables_of_isPipeline {i : Instr} (hi : isPipeline i = true) : needsTables i = false := by
  cases i
  case encode | decode => rfl
  all_goals cases hi

/-- The stages that R165 puts after BUILD_SBOX in place of ENCODE and of DECODE. Any other command is given none. -/
def pipelineStages (i : Instr) : List Instr :=
  match i with
  | .encode => [.ksXor, .sub, .rotl3, .reverse]
  | .decode => [.reverse, .rotr3, .invSub, .ksXor]
  | _ => []

theorem isStage_of_mem_pipelineStages (i : Instr) : ∀ j ∈ pipelineStages i, isStage j = true := by
  cases i <;> decide

section
variable (s : State) (b : Nat → Byte) {j k : Nat}

/-- The stages of ENCODE move byte `j` to the mirrored index as `z[j]` of R160. -/
theorem stagesBuf_encode (mirror : k + j + 1 = s.count) :
    stagesBuf (pipelineStages .encode) s b k = encodeByte s.sbox s.digest j (b j) := by
  have inside : j < s.count := by omega
  simp only [pipelineStages, stagesBuf]
  rw [stageBuf_reverse _ mirror]
  simp only [stageBuf_of_lt inside, stageByte, encodeByte]

/-- The stages of DECODE make `out[k]` of R161 of the byte at the mirrored index. -/
theorem stagesBuf_decode (mirror : k + j + 1 = s.count) :
    stagesBuf (pipelineStages .decode) s b k = decodeByte s.inv s.digest k (b j) := by
  have inside : k < s.count := by omega
  have index : s.count - 1 - k = j := by omega
  simp only [pipelineStages, stagesBuf, stageBuf_of_lt inside, stageByte, decodeByte, index]

theorem stagesBuf_of_le (is : List Instr) (hk : s.count ≤ k) : stagesBuf is s b k = b k := by
  induction is generalizing b with
  | nil => rfl
  | cons i rest ih => rw [stagesBuf, ih, stageBuf_of_le hk]

/-- The stages of DECODE undo those of ENCODE, the last one first (R138 items 1 to 4). -/
theorem stagesBuf_decode_encode (h : Inverse s.sbox s.inv) :
    stagesBuf (pipelineStages .decode) s (stagesBuf (pipelineStages .encode) s b) = b := by
  simp only [pipelineStages, stagesBuf]
  rw [stageBuf_reverse_reverse, stageBuf_rotr3_rotl3, stageBuf_invSub_sub _ _ h, stageBuf_ksXor_ksXor]

theorem stagesBuf_encode_decode (h : Inverse s.sbox s.inv) :
    stagesBuf (pipelineStages .encode) s (stagesBuf (pipelineStages .decode) s b) = b := by
  simp only [pipelineStages, stagesBuf]
  rw [stageBuf_ksXor_ksXor, stageBuf_sub_invSub _ _ h, stageBuf_rotl3_rotr3, stageBuf_reverse_reverse]

end

/-! ## One CORE step of the pipeline -/

theorem SameButBufPending.build {s t : State} (h : SameButBufPending s t) : SameButBufPending s.build t.build := by
  obtain ⟨digest, -, -, -, len, irqEn, err, errcode, -⟩ := h
  dsimp only at digest
  exact ⟨digest, by simp [digest], by simp [digest], rfl, len, irqEn, err, errcode, rfl⟩

/-- A rewrite of BUF that writes what the stages give, followed by a build, is those stages on the built state. -/
theorem rewrite_build_eq_stages {s : State} {f : Nat → Byte} {is : List Instr}
    (h : ∀ k, k < s.count → stagesBuf is s.build s.bufByte k = f k) :
    SameButBufPending s.build (s.rewrite s.count f).build.complete ∧
      (s.rewrite s.count f).build.complete.bufByte = stagesBuf is s.build s.bufByte := by
  refine ⟨by simp [SameButBufPending, SameButBuf], funext fun k => ?_⟩
  rw [State.bufByte_complete, State.bufByte_build, State.bufByte_rewrite]
  split
  next inside => exact (h k inside).symm
  next outside => exact (stagesBuf_of_le s.build _ is (Nat.le_of_not_lt outside)).symm

/-- ENCODE and DECODE are their stages on the tables of the current digest (R160, R161, R165). -/
theorem exec_pipeline {i : Instr} (hi : isPipeline i = true) (s : State) :
    ∃ t, exec i s = .next t ∧ SameButBufPending s.build t ∧
      t.bufByte = stagesBuf (pipelineStages i) s.build s.bufByte := by
  have mirror : ∀ k, k < s.count → k + (s.count - 1 - k) + 1 = s.count := by omega
  cases i
  case encode =>
    exact ⟨_, exec_encode s, rewrite_build_eq_stages fun k hk => stagesBuf_encode s.build _ (mirror k hk)⟩
  case decode =>
    exact ⟨_, exec_decode s, rewrite_build_eq_stages fun k hk => stagesBuf_decode s.build _ (mirror k hk)⟩
  all_goals cases hi

/-- What a pipeline command in flight does, said once: result, completion and frame. -/
theorem exec_pipeline_result {i : Instr} (hi : isPipeline i = true) (s : State) :
    ∃ t, exec i s = .next t ∧ Completed t ∧ SameButBufTables s t ∧ SameHostSide s t ∧ t.sboxValid = true ∧
      t.sbox = permGen (seedOf s.digest) ∧ (∀ x, lookup t.inv (lookup t.sbox x) = x) ∧
      (∀ k, s.len.toNat ≤ k → t.bufByte k = s.bufByte k) ∧ t.inv = s.build.inv ∧
      t.bufByte = stagesBuf (pipelineStages i) s.build s.bufByte := by
  obtain ⟨t, ht, ⟨-, sbox, inv, valid, -⟩, bytes⟩ := exec_pipeline hi s
  dsimp only at sbox inv valid
  refine ⟨t, ht, exec_completed ht, exec_sameButBufTables ht, exec_sameHostSide ht, valid, sbox, ?_,
    fun k => exec_keeps_bufByte_of_len_le ht, inv, bytes⟩
  rw [sbox, inv]
  exact (buildTables_inverse (seedOf s.digest)).1

/-- Settles O18: the stages of ENCODE take byte `j` to its mirrored index through `encodeByte`. -/
theorem encodeResult : Obligations.EncodeResult := by
  intro s
  obtain ⟨t, ht, done, frame, host, valid, sbox, inverse, outside, -, bytes⟩ := exec_pipeline_result (i := .encode) rfl s
  refine ⟨t, ht, done, frame, host, valid, sbox, inverse, outside, fun i j mirror => ?_⟩
  rw [bytes]
  exact stagesBuf_encode s.build s.bufByte mirror

/-- Settles O19: the stages of DECODE take byte `j` to its mirrored index through `decodeByte`. -/
theorem decodeResult : Obligations.DecodeResult := by
  intro s
  obtain ⟨t, ht, done, frame, host, valid, sbox, inverse, outside, inv, bytes⟩ := exec_pipeline_result (i := .decode) rfl s
  refine ⟨t, ht, done, frame, host, valid, sbox, inverse, outside, fun i j mirror => ?_⟩
  rw [bytes, inv]
  exact stagesBuf_decode s.build s.bufByte mirror

/-! ## What ENCODE reads of the digest (R168) -/

theorem ks_eq_of_indexed_bytes {D D' : Vector Byte 32} {i : Nat} (seven : digestAt D (7 * i) = digestAt D' (7 * i))
    (three : digestAt D (3 * i) = digestAt D' (3 * i)) : ks D i = ks D' i := by
  rw [ks_eq, ks_eq, Nat.mul_comm i 7, Nat.mul_comm i 3, seven, three]

/-- Settles O35: a byte of the output is made of the seed's table, one byte of BUF and that byte's keystream byte. -/
theorem encodeDependsOnlyOnIndexedBytes : Obligations.EncodeDependsOnlyOnIndexedBytes := by
  intro s s' len bytes seed indexed
  obtain ⟨t, ht, -, -, -, -, -, -, -, outT⟩ := encodeResult s
  obtain ⟨t', ht', -, -, -, -, -, -, -, outT'⟩ := encodeResult s'
  refine ⟨t, t', ht, ht', fun k hk => ?_⟩
  obtain ⟨j, mirror⟩ : ∃ j, k + j + 1 = s.len.toNat := ⟨s.len.toNat - 1 - k, by omega⟩
  have inside : j < s.len.toNat := by omega
  obtain ⟨seven, three⟩ := indexed j inside
  rw [outT k j mirror, outT' k j (len ▸ mirror), seed, bytes j inside, ks_eq_of_indexed_bytes seven three]

/-! ## The pipeline run through CMD -/

/-- ENCODE or DECODE from an idle block that passes the checks of R183. -/
theorem runCommand_pipeline {i : Instr} {s : State} (hi : isPipeline i = true) (idle : s.busy = false)
    (fits : s.count ≤ Config.bufBytes) :
    ∃ t, runCommand i s = .next t ∧ Completed t ∧ SameButBufPending s.build t ∧
      t.bufByte = stagesBuf (pipelineStages i) s.build s.bufByte := by
  have noTables : needsTables i = true → s.sboxValid = true := by simp [needsTables_of_isPipeline hi]
  obtain ⟨t, ht, frame, bytes⟩ := exec_pipeline hi (s.accept (opcode i))
  have accepted := (accept_sameButBufPending s (opcode i)).build
  refine ⟨t, (runCommand_inRange idle fits noTables).trans ht, exec_completed ht, accepted.trans frame, ?_⟩
  rw [bytes, accepted.stagesBuf_eq]
  rfl

/-- Two pipeline commands in a row work on the same tables, since the first keeps the digest. -/
theorem runAll_two_pipelines {i j : Instr} {s : State} (hi : isPipeline i = true) (hj : isPipeline j = true)
    (idle : s.busy = false) (fits : s.count ≤ Config.bufBytes) :
    ∃ t, runAll [i, j] s = .next t ∧ Completed t ∧ SameButBufPending s.build t ∧
      t.bufByte = stagesBuf (pipelineStages j) s.build (stagesBuf (pipelineStages i) s.build s.bufByte) := by
  obtain ⟨m, hm, doneM, frameM, bytesM⟩ := runCommand_pipeline hi idle fits
  obtain ⟨t, ht, doneT, frameT, bytesT⟩ := runCommand_pipeline hj doneM.1 (frameM.count_eq.trans_le fits)
  have sameTables : SameButBufPending s.build m.build := frameM.build
  refine ⟨t, ?_, doneT, sameTables.trans frameT, ?_⟩
  · rw [runAll_cons hm, runAll_cons ht, runAll_nil]
  · rw [bytesT, bytesM, sameTables.stagesBuf_eq]

/-- Two pipeline commands of which the second undoes the first restore BUF and keep LEN and DIGEST. -/
theorem runAll_pipelines_restore {i j : Instr} {s : State} (hi : isPipeline i = true) (hj : isPipeline j = true)
    (idle : s.busy = false) (fits : s.count ≤ Config.bufBytes)
    (undo : ∀ b, stagesBuf (pipelineStages j) s.build (stagesBuf (pipelineStages i) s.build b) = b) :
    ∃ t, runAll [i, j] s = .next t ∧ Completed t ∧ SameBuf s t ∧ t.len = s.len ∧ t.digest = s.digest := by
  obtain ⟨t, ht, done, ⟨digest, -, -, -, len, -⟩, bytes⟩ := runAll_two_pipelines hi hj idle fits
  exact ⟨t, ht, done, congrFun (bytes.trans (undo _)), len, digest⟩

/-- Settles O32: the built tables are each other's inverse, so each stage of DECODE undoes one of ENCODE. -/
theorem decodeAfterEncodeRestores : Obligations.DecodeAfterEncodeRestores :=
  fun s idle fits => runAll_pipelines_restore (i := .encode) (j := .decode) rfl rfl idle fits fun b =>
    stagesBuf_decode_encode s.build b (buildTables_inverse (seedOf s.digest))

/-- Settles O33: the same inverse tables, with the roles of the two commands exchanged. -/
theorem encodeAfterDecodeRestores : Obligations.EncodeAfterDecodeRestores :=
  fun s idle fits => runAll_pipelines_restore (i := .decode) (j := .encode) rfl rfl idle fits fun b =>
    stagesBuf_encode_decode s.build b (buildTables_inverse (seedOf s.digest))

/-! ## The stages in place of a pipeline command (R165) -/

theorem runCommand_buildSbox {s : State} (idle : s.busy = false) :
    ∃ t, runCommand .buildSbox s = .next t ∧ Completed t ∧ SameButBufPending s.build t ∧ t.bufByte = s.bufByte :=
  ⟨_, runCommand_accepted idle nofun nofun, ⟨rfl, rfl⟩, by simp [SameButBufPending, SameButBuf], rfl⟩

/-- The stages after BUILD_SBOX find the tables it built. -/
theorem runAll_buildSbox_stages {is : List Instr} {s : State} (stages : ∀ i ∈ is, isStage i = true) (idle : s.busy = false)
    (fits : s.count ≤ Config.bufBytes) :
    ∃ t, runAll (.buildSbox :: is) s = .next t ∧ Completed t ∧ SameButBufPending s.build t ∧
      t.bufByte = stagesBuf is s.build s.bufByte := by
  obtain ⟨m, hm, doneM, frameM, bytesM⟩ := runCommand_buildSbox idle
  obtain ⟨t, ht, doneT, frameT, bytesT⟩ :=
    runAll_stages stages doneM (frameM.count_eq.trans_le fits) frameM.sboxValid_eq
  refine ⟨t, (runAll_cons hm).trans ht, doneT, frameM.trans frameT, ?_⟩
  rw [bytesT, bytesM, frameM.stagesBuf_eq]

theorem statusWord_congr {t u : State} (ht : Completed t) (hu : Completed u) (err : u.err = t.err)
    (errcode : u.errcode = t.errcode) (valid : u.sboxValid = t.sboxValid) : u.statusWord = t.statusWord := by
  rw [State.statusWord, State.statusWord, ht.1, ht.2, hu.1, hu.2, err, errcode, valid]

/-- The list of R165 in place of a pipeline command. -/
theorem runAll_pipeline_eq_stages {i : Instr} {s : State} (hi : isPipeline i = true) (idle : s.busy = false)
    (fits : s.count ≤ Config.bufBytes) :
    ∃ t u, runAll [i] s = .next t ∧ runAll (.buildSbox :: pipelineStages i) s = .next u ∧ SameBuf t u ∧
      u.sbox = t.sbox ∧ u.inv = t.inv ∧ u.sboxValid = t.sboxValid ∧ u.statusWord = t.statusWord ∧
      u.digest = t.digest ∧ u.len = t.len := by
  obtain ⟨t, ht, doneT, ⟨digest, sbox, inv, valid, len, -, err, errcode, -⟩, bytes⟩ := runCommand_pipeline hi idle fits
  obtain ⟨u, hu, doneU, ⟨digest', sbox', inv', valid', len', -, err', errcode', -⟩, bytes'⟩ :=
    runAll_buildSbox_stages (isStage_of_mem_pipelineStages i) idle fits
  have sameStatus := statusWord_congr doneT doneU (err'.trans err.symm) (errcode'.trans errcode.symm)
    (valid'.trans valid.symm)
  exact ⟨t, u, (runAll_cons ht).trans (runAll_nil t), hu, congrFun (bytes'.trans bytes.symm), sbox'.trans sbox.symm,
    inv'.trans inv.symm, valid'.trans valid.symm, sameStatus, digest'.trans digest.symm, len'.trans len.symm⟩

/-- Settles O34: the two lists of R165 are BUILD_SBOX and the stages of ENCODE and of DECODE. -/
theorem stagesComposeToThePipeline : Obligations.StagesComposeToThePipeline := by
  rintro s i is idle fits (⟨rfl, rfl⟩ | ⟨rfl, rfl⟩)
  · exact runAll_pipeline_eq_stages (i := .encode) rfl idle fits
  · exact runAll_pipeline_eq_stages (i := .decode) rfl idle fits

end Sys2Proof.Proofs
end

section
/-! Exceptions and completion (R180 to R194): the checks of the issue procedure and what a rejection records, the busy
window, the completion of a command in flight, what can stop a step or change BUSY and SBOX_VALID, and irq. -/

namespace Sys2Proof.Proofs

open Sys2Proof Sys2Proof.Machine

/-! ## Rejections and the checks of the issue procedure -/

/-- Settles O9: the two steps of `reject` are one record update. -/
theorem rejectChangesOnlyStatus : Obligations.RejectChangesOnlyStatus := by
  refine ⟨fun s c => ?_, rfl⟩
  cases c <;> rfl

theorem issue_busy {s : State} (w : Word) (hb : s.busy = true) : issue w s = s.reject .cmdBusy :=
  if_pos hb

theorem issue_rsvd {s : State} {w : Word} (hb : s.busy = false) (hw : decode w = .rsvd) :
    issue w s = s.reject .cmdRsvd := by
  simp [issue, hb, hw]

theorem issue_illegal {s : State} {w : Word} (hb : s.busy = false) (hw : decode w = .illegal) :
    issue w s = s.reject .cmdIllegal := by
  simp [issue, hb, hw]

theorem issue_command {s : State} {w : Word} {i : Instr} (hb : s.busy = false) (hw : decode w = .command i) :
    issue w s = issueCommand i s := by
  simp [issue, hb, hw]

/-- The column "uses LEN" of R82 as the opcodes R183 lists. -/
theorem usesLen_iff_opcode (i : Instr) : usesLen i = true ↔
    (0x02 ≤ (opcode i).toNat ∧ (opcode i).toNat ≤ 0x07) ∨ opcode i = 0x10 ∨ opcode i = 0x11 := by
  cases i <;> decide

/-- The column "needs SBOX_VALID" of R82 as the opcodes R183 lists. -/
theorem needsTables_iff_opcode (i : Instr) : needsTables i = true ↔ opcode i = 0x03 ∨ opcode i = 0x04 := by
  cases i <;> decide

/-- The assigned opcodes as R183 lists them. -/
theorem opcodeAssigned_iff_listed (op : Byte) : opcodeAssigned op = true ↔ op.toNat ≤ 0x07 ∨ op = 0x10 ∨ op = 0x11 := by
  simpa [BitVec.toNat_eq] using opcodeAssigned_iff op

theorem decode_eq_illegal_of_fields {w : Word} (rsvd : rsvdField w = 0) (h : ¬ opcodeAssigned (opcField w) = true) :
    decode w = .illegal := by
  rw [eq_illegal_iff, exists_decode_eq_command_iff, wellFormedWord_iff_fields]
  exact ⟨decode_not_rsvd rsvd, fun wellFormed => h wellFormed.2⟩

theorem exists_decode_of_fields {w : Word} (rsvd : rsvdField w = 0) (h : opcodeAssigned (opcField w) = true) :
    ∃ i, decode w = .command i :=
  (exists_decode_eq_command_iff w).2 ((wellFormedWord_iff_fields w).2 ⟨rsvd, h⟩)

theorem opcField_of_decode {w : Word} {i : Instr} (h : decode w = .command i) : opcField w = opcode i := by
  rw [decode_command_eq h, opcField_encode]

/-- Settles O8: the first three checks are the classes of the word, the last two its command's columns in R82. -/
theorem issueChecksInOrder : Obligations.IssueChecksInOrder := by
  intro s w rest hin
  have issued : step s = .next (issue w (s.thenTurns rest)) :=
    step_writeReg (r := .cmd) hin (by decide) (by decide) rfl (by decide)
  rw [issued]
  dsimp only
  congr 1
  by_cases busy : s.busy = true
  · rw [if_pos busy]
    exact issue_busy w busy
  rw [if_neg busy]
  have idle : (s.thenTurns rest).busy = false := Bool.eq_false_iff.2 busy
  by_cases rsvd : rsvdField w ≠ 0
  · rw [if_pos rsvd, issue_rsvd idle (decode_rsvd rsvd)]
  rw [if_neg rsvd]
  have rsvdZero : rsvdField w = 0 := not_not.1 rsvd
  by_cases assigned : opcodeAssigned (opcField w) = true
  · obtain ⟨i, hi⟩ := exists_decode_of_fields rsvdZero assigned
    rw [if_neg (not_not.2 ((opcodeAssigned_iff_listed _).1 assigned)), issue_command idle hi, opcField_of_decode hi]
    simp only [← usesLen_iff_opcode, ← needsTables_iff_opcode]
    rfl
  · rw [if_pos (mt (opcodeAssigned_iff_listed _).2 assigned), issue_illegal idle (decode_eq_illegal_of_fields rsvdZero assigned)]

/-! ## The busy window -/

theorem frozen_of_place {off : BitVec 17} (h : off = 0x00010 ∨ (0x20 ≤ off.toNat ∧ off.toNat < 0x40) ∨
    (0x10000 ≤ off.toNat ∧ off.toNat < 0x10000 + Config.bufBytes)) : (regionOf off).frozen = true := by
  obtain rfl | digest | buf := h
  · exact congrArg Region.frozen (regionOf_registerOffset .len)
  · rw [regionOf_digest (k := off.toNat - 0x20) (by omega) (by omega)]; rfl
  · rw [regionOf_buf (k := off.toNat - 0x10000) (by omega) (by omega)]; rfl

/-- Settles O49: the three places are the protected regions of R189. -/
theorem busyAccessIsDropped : Obligations.BusyAccessIsDropped := by
  intro s rest off d hb ha place hin
  have inFlight : (s.thenTurns rest).busy = true := hb
  have width : off.toNat < 0x20 → d.width = .four := fun low => by
    obtain ⟨-, word⟩ | digest | buf := place
    · exact word
    · omega
    · omega
  rw [step_write hin ha width, hostWrite_frozen inFlight (frozen_of_place (place.imp_left And.left))]
  rfl

/-! ## Completion -/

/-- Settles O20: the effect of a command touches neither ERR nor ERRCODE. -/
theorem everyCommandCompletes : Obligations.EveryCommandCompletes := by
  intro i s
  obtain ⟨f, h⟩ := exec_shape i s
  obtain ⟨-, -, -, err, errcode, -⟩ := exec_sameButBufTables h
  exact ⟨_, h, exec_completed h, err, errcode⟩

/-- Under the invariant PENDING holds a command while BUSY = 1. -/
theorem coreStep_completes {s : State} (h : s.Inv) (hb : s.busy = true) : ∃ t, coreStep s = .next t ∧ Completed t := by
  obtain ⟨i, flight, -⟩ := h.flightAccepted hb
  obtain ⟨t, ht, done, -⟩ := everyCommandCompletes i s
  exact ⟨t, (coreStep_flight hb (commandOf_some flight)).trans ht, done⟩

/-- Settles O59: whether the turn is taken off the inbox or given by log entry 7, it is CORE's. -/
theorem commandInFlightCompletes : Obligations.CommandInFlightCompletes := by
  intro s rest h hb turn
  obtain hin | hin := turn
  · rw [step_core hin]
    exact coreStep_completes (inv_thenTurns rest h) hb
  · rw [step_nil hin]
    exact coreStep_completes h hb

theorem withFetchWord_encode (s : State) (i : Instr) :
    s.withFetchWord 32 (encode i).toNat = (s.accept (opcode i)).thenTurns (.core :: s.inbox) := by
  rw [State.withFetchWord, State.placeCommand, decodeTableWord_encode]

/-- Settles O6: CORE's turn is the one `withFetchWord` puts in front, and PENDING holds the command's opcode. -/
theorem placedWordRunsNext : Obligations.PlacedWordRunsNext := by
  intro s i
  have turnTaken : ((s.accept (opcode i)).thenTurns (.core :: s.inbox)).thenTurns s.inbox = s.accept (opcode i) := rfl
  rw [withFetchWord_encode, step_core rfl, turnTaken, coreStep_flight rfl rfl]

/-- CORE's turn with the command `i` in flight completes it and leaves the turns after it. -/
theorem step_completes_flight {s : State} {i : Instr} {rest : List Event} (hb : s.busy = true) (hp : s.pending = opcode i)
    (hin : s.inbox = .core :: rest) : ∃ t, step s = .next t ∧ Completed t ∧ t.inbox = rest := by
  obtain ⟨runs, -⟩ := stepRunsThePendingCommand s rest i hb hp
  obtain ⟨t, ht, done, -⟩ := everyCommandCompletes i (s.thenTurns rest)
  obtain ⟨-, -, -, inbox⟩ := exec_sameHostSide ht
  exact ⟨t, (runs hin).trans ht, done, inbox⟩

/-- Settles O60: whichever of the two comes last decides DONE, and BUSY falls at the completion. -/
theorem doneRaceAllowsBothOrders : Obligations.DoneRaceAllowsBothOrders := by
  intro s i v rest hb hp clears
  refine ⟨fun hin => ?_, fun hin => ?_⟩
  · obtain ⟨t, completion, ⟨idle, -⟩, inbox⟩ := step_completes_flight hb hp hin
    exact ⟨t, _, completion, statusWriteClears t rest v inbox, idle, if_pos clears⟩
  · have written : step s = .next ((s.thenTurns (.core :: rest)).writeStatus v) :=
      statusWriteClears s (.core :: rest) v hin
    obtain ⟨u, completion, ⟨idle, done⟩, -⟩ :=
      step_completes_flight (s := (s.thenTurns (.core :: rest)).writeStatus v) hb hp rfl
    exact ⟨_, u, written, completion, idle, done⟩

/-! ## What stops a step -/

/-- Settles O57: CORE's turn is never refused under the invariant, and a host's turn is served or a bus error (R55). -/
theorem onlyBusErrorsStopARun : Obligations.OnlyBusErrorsStopARun := by
  intro s h
  cases hin : s.inbox with
  | nil =>
    obtain ⟨t, ht, -⟩ := inv_coreStep h
    exact .inl ⟨t, (step_nil hin).trans ht⟩
  | cons e rest =>
    cases e with
    | core =>
      obtain ⟨t, ht, -⟩ := inv_coreStep (inv_thenTurns rest h)
      exact .inl ⟨t, (step_core hin).trans ht⟩
    | hardReset => exact .inl ⟨_, step_cons hin⟩
    | host x =>
      obtain ⟨stopped, served⟩ := busErrorExactlyWhenIllegal s x rest hin
      by_cases illegal : x.off.toNat % x.width.bytes ≠ 0 ∨ (x.off.toNat < 0x20 ∧ x.width ≠ .four)
      · exact .inr ⟨x, rest, rfl, stopped illegal, illegal⟩
      · obtain ⟨aligned, width⟩ := not_or.1 illegal
        exact .inl (served (not_not.1 aligned) fun low => by_contra fun wrong => width ⟨low, wrong⟩)

/-! ## What changes BUSY and SBOX_VALID -/

/-- An aligned offset in the register region is that of the register it selects. -/
theorem eq_registerOffset {off : BitVec 17} {r : Reg} (hr : regionOf off = .register r) (ha : off.toNat % 4 = 0) :
    off = registerOffset r := by
  have low := regionOf_eq_register hr
  have offsets : ∀ q < 8, registerOffset (regAt q) = BitVec.ofNat 17 (4 * q) := by decide
  rw [regionOf_register low, Region.register.injEq] at hr
  rw [← hr, offsets _ (by omega), show 4 * (off.toNat / 4) = off.toNat by omega, BitVec.ofNat_toNat, BitVec.setWidth_eq]

theorem exists_word_of_width_four {d : BusData} (h : d.width = .four) : ∃ v, d = .word v := by
  cases d with
  | word v => exact ⟨v, rfl⟩
  | byte v | half v => cases h

/-- The one write of CTRL that R53 and R54 allow. -/
theorem write_ctrl_of_legal {off : BitVec 17} {d : BusData} (legal : (Transaction.write off d).legal = true)
    (hr : regionOf off = .register .ctrl) : off = 0x00004 ∧ ∃ v, d = .word v := by
  obtain ⟨aligned, width⟩ := (Transaction.legal_iff _).1 legal
  have word : d.width = .four := width (regionOf_eq_register hr)
  rw [Transaction.width, word] at aligned
  exact ⟨eq_registerOffset hr aligned, exists_word_of_width_four word⟩

/-- A write of CTRL is a soft reset, or leaves all but IRQ_EN (R42). -/
theorem writeCtrl_cases (s : State) (v : Word) :
    (v.getLsbD 1 = true ∧ (s.writeCtrl v).sboxValid = false) ∨ s.writeCtrl v = { s with irqEn := v.getLsbD 0 } := by
  by_cases reset : v.getLsbD 1 = true
  · exact .inl ⟨reset, by simp only [State.writeCtrl, if_pos reset]; rfl⟩
  · exact .inr (if_neg reset)

/-- Outside CTRL and an idle DIGEST no write ends a command in flight or changes SBOX_VALID. -/
theorem hostWrite_busy_sboxValid (s : State) (off : BitVec 17) (d : BusData) :
    (regionOf off = .register .ctrl ∧ s.hostWrite off d = s.writeCtrl d.value) ∨
    (s.busy = false ∧ ∃ k, regionOf off = .digest k ∧ s.hostWrite off d = s.writeDigest k d.bytes) ∨
    ((s.busy = true → (s.hostWrite off d).busy = true) ∧ (s.hostWrite off d).sboxValid = s.sboxValid) := by
  by_cases frozen : s.busy = true ∧ (regionOf off).frozen = true
  · rw [hostWrite_frozen frozen.1 frozen.2]
    exact .inr (.inr ⟨id, rfl⟩)
  have opened : s.busy = false ∨ (regionOf off).frozen = false := by
    simpa only [not_and_or, Bool.not_eq_true] using frozen
  rw [hostWrite_open opened]
  cases hr : regionOf off with
  | register r =>
    cases r with
    | ctrl => exact .inl ⟨rfl, rfl⟩
    | cmd => exact .inr (.inr (issue_keeps d.value s))
    | id | status | len | seed | cap | pgenId => exact .inr (.inr ⟨id, rfl⟩)
  | digest k =>
    have idle : s.busy = false := opened.resolve_right (by simp [hr, Region.frozen])
    exact .inr (.inl ⟨idle, k, rfl, rfl⟩)
  | sbox k | inv k | buf k | reserved => exact .inr (.inr ⟨id, rfl⟩)

/-- What a host's turn does to BUSY and SBOX_VALID: a soft reset, a write of DIGEST while idle, or nothing but acceptance. -/
theorem hostStep_busy_sboxValid {x : Transaction} {s t : State} (h : hostStep x s = .next t) :
    (Event.isSoftReset (.host x) ∧ t.sboxValid = false) ∨
    ((s.busy = false ∧ ∃ off d, x = .write off d ∧ 0x20 ≤ off.toNat ∧ off.toNat < 0x40) ∧ t.sboxValid = false) ∨
    ((s.busy = true → t.busy = true) ∧ t.sboxValid = s.sboxValid) := by
  obtain ⟨legal, ⟨n, off, rfl, rfl⟩ | ⟨off, d, rfl, rfl⟩⟩ := hostStep_next h
  · rw [hostRead_frame]
    exact .inr (.inr ⟨id, rfl⟩)
  obtain ⟨ctrl, e⟩ | ⟨idle, k, digest, e⟩ | kept := hostWrite_busy_sboxValid s off d
  · obtain ⟨rfl, v, rfl⟩ := write_ctrl_of_legal legal ctrl
    rw [e]
    obtain ⟨reset, cleared⟩ | irqEnOnly := writeCtrl_cases s v
    · exact .inl ⟨⟨v, rfl, reset⟩, cleared⟩
    · exact .inr (.inr (by rw [BusData.value, irqEnOnly]; exact ⟨id, rfl⟩))
  · have place := regionOf_digest_bound digest
    rw [e]
    exact .inr (.inl ⟨⟨idle, off, d, rfl, by omega, by omega⟩, rfl⟩)
  · exact .inr (.inr kept)

theorem pending_of_buildsTables {s : State} {i : Instr} (flight : s.inFlight = some i) (hi : buildsTables i = true) :
    s.pending = 0x01 ∨ s.pending = 0x10 ∨ s.pending = 0x11 := by
  have listed := flight_buildsTables s.pending
  rw [← State.inFlight, flight, Option.any_some, hi] at listed
  simpa using listed

/-- Settles O58: one case for each agent's turn. -/
theorem onlyTheseEventsChangeBusyAndSboxValid : Obligations.OnlyTheseEventsChangeBusyAndSboxValid := by
  intro s t ht
  rw [step_eq_takeTurn] at ht
  generalize s.turn = turn at ht ⊢
  cases turn with
  | core =>
    obtain ⟨rises, stays⟩ := coreStep_sboxValid ht
    refine ⟨fun _ _ => .inl rfl, fun invalid valid => ?_, fun valid invalid => ?_⟩
    · obtain ⟨busy, i, flight, builds⟩ := rises invalid valid
      exact ⟨rfl, busy, pending_of_buildsTables flight builds⟩
    · simp [stays valid] at invalid
  | hardReset =>
    obtain rfl : State.hardReset _ = t := Host.Outcome.next.inj ht
    exact ⟨fun _ _ => .inr (.inl rfl), fun _ => nofun, fun _ _ => .inl rfl⟩
  | host x =>
    obtain ⟨reset, cleared⟩ | ⟨⟨idle, off, d, rfl, place⟩, cleared⟩ | ⟨stays, same⟩ := hostStep_busy_sboxValid ht
    · exact ⟨fun _ _ => .inr (.inr reset), by simp [cleared], fun _ _ => .inr (.inl reset)⟩
    · exact ⟨fun busy => absurd (idle.symm.trans busy) nofun, by simp [cleared],
        fun _ _ => .inr (.inr ⟨idle, off, d, rfl, place⟩)⟩
    · refine ⟨fun busy ended => ?_, fun invalid valid => ?_, fun valid invalid => ?_⟩
      · simp [stays busy] at ended
      · simp [same, invalid] at valid
      · simp [same, valid] at invalid

/-! ## The interrupt output -/

/-- Settles O53: irq is read off the state that each of the two writes leaves. -/
theorem irqFollowsItsCauses : Obligations.IrqFollowsItsCauses := by
  intro s rest v
  refine ⟨rfl, fun enables noReset hin => ?_, fun clearsDone clearsErr hin => ?_⟩
  · obtain ⟨written, -⟩ := ctrlWriteSetsIrqEnThenResets s rest v hin
    rw [if_neg (Bool.eq_false_iff.1 noReset)] at written
    exact ⟨_, written, by simp [State.irq, enables]⟩
  · exact ⟨_, statusWriteClears s rest v hin, by simp [State.irq, clearsDone, clearsErr]⟩

end Sys2Proof.Proofs
end

section
/-! Reset (R210 to R213): what a soft reset leaves when it finds the block idle and when it aborts a command in flight, and
the values after a hard reset and at launch. -/

namespace Sys2Proof.Proofs

open Sys2Proof Sys2Proof.Machine

/-! ## The abort of the command in flight -/

theorem abort_bufByte (s : State) (k : Nat) :
    s.abort.bufByte k =
      if s.inFlight.any usesLen = true ∧ k < s.count then Config.any s.draws k else s.bufByte k := by
  have scrambled : (if s.inFlight.any usesLen then s.scrambleBuf else s).bufByte k =
      if s.inFlight.any usesLen = true ∧ k < s.count then Config.any s.draws k else s.bufByte k := by
    cases s.inFlight.any usesLen with
    | true => simp [State.bufByte_scrambleBuf]
    | false => simp
  rw [← scrambled, State.abort]
  split
  · exact State.bufByte_scrambleTables _ k
  · rfl

theorem abort_keeps_tables {s : State} (noBuild : s.inFlight.any buildsTables = false) :
    s.abort.sbox = s.sbox ∧ s.abort.inv = s.inv := by
  simp only [State.abort, noBuild, Bool.false_eq_true, if_false]
  split
  · exact ⟨State.scrambleBuf_sbox s, State.scrambleBuf_inv s⟩
  · exact ⟨rfl, rfl⟩

/-! ## Soft reset -/

theorem softReset_of_idle {s : State} (idle : s.busy = false) : s.softReset = s.clearStatus := by
  simp [State.softReset, idle]

theorem softReset_of_busy {s : State} (busy : s.busy = true) : s.softReset = s.abort.clearStatus := by
  simp [State.softReset, busy]

/-- A byte of BUF is lost only below LEN and only to the abort of a transforming command. -/
theorem softReset_keeps_bufByte {s : State} {k : Nat}
    (safe : s.busy = true → s.inFlight.any usesLen = true → s.count ≤ k) : s.softReset.bufByte k = s.bufByte k := by
  cases busy : s.busy with
  | false => rw [softReset_of_idle busy, State.bufByte_clearStatus]
  | true =>
    have untouched : ¬ (s.inFlight.any usesLen = true ∧ k < s.count) :=
      fun ⟨transforming, inside⟩ => Nat.not_lt_of_le (safe busy transforming) inside
    rw [softReset_of_busy busy, State.bufByte_clearStatus, abort_bufByte, if_neg untouched]

/-- The tables are lost only to the abort of a build. -/
theorem softReset_keeps_tables {s : State} (safe : s.busy = true → s.inFlight.any buildsTables = false) :
    s.softReset.sbox = s.sbox ∧ s.softReset.inv = s.inv := by
  cases busy : s.busy with
  | false => rw [softReset_of_idle busy]; exact ⟨rfl, rfl⟩
  | true => rw [softReset_of_busy busy]; exact abort_keeps_tables (safe busy)

/-- Settles O52: an idle block loses no byte, and R213's two opcode lists are the commands that use LEN and those that
build tables. -/
theorem softResetEffect : Obligations.SoftResetEffect := by
  intro s
  obtain ⟨digest, len, irqEn, pending, rdata, inbox⟩ := softReset_keeps s
  refine ⟨rfl, rfl, rfl, rfl, rfl, digest, len, irqEn, pending, rdata, inbox, fun k beyond => ?_, fun noStage k => ?_,
    fun noBuild => ?_⟩
  · exact softReset_keeps_bufByte fun _ _ => beyond
  · refine softReset_keeps_bufByte fun busy transforming => ?_
    rw [State.inFlight, flight_usesLen, decide_eq_true_iff] at transforming
    exact absurd transforming (noStage.resolve_left (by simp [busy]))
  · refine softReset_keeps_tables fun busy => ?_
    rw [State.inFlight, flight_buildsTables, decide_eq_false_iff_not]
    exact noBuild.resolve_left (by simp [busy])

/-! ## Hard reset and launch -/

/-- Settles O54: the state after a hard reset and the launch state agree on the fields that the words are made of. -/
theorem hardResetValues : Obligations.HardResetValues := by
  intro s rest hin
  refine ⟨(s.thenTurns rest).hardReset, step_cons hin, rfl, fun t ht => ?_⟩
  obtain ⟨digest, irqEn, busy, done, err, errcode, valid, len⟩ :
      t.digest = Vector.replicate 32 0 ∧ t.irqEn = false ∧ t.busy = false ∧ t.done = false ∧ t.err = false ∧
        t.errcode = 0 ∧ t.sboxValid = false ∧ t.len = 0 := by
    obtain rfl | rfl := ht <;> exact ⟨rfl, rfl, rfl, rfl, rfl, rfl, rfl, rfl⟩
  obtain ⟨bytes, seed, ctrl, status⟩ := words_at_reset digest irqEn busy done err errcode valid
  exact ⟨bytes, seed, valid, len, ctrl, status, by simp [State.irq, irqEn], rfl, rfl, rfl⟩

/-- Settles O55: at launch nothing is in flight, no error is recorded, the tables are not valid and BUF has no written
byte. -/
theorem invariantHoldsAtReset : Obligations.InvariantHoldsAtReset := inv_of_idle rfl rfl rfl rfl reset_buf_wf

end Sys2Proof.Proofs
end
